-- ==== Sys2Proof/Word.lean ====
section
/-! DEFINITION. The word types of DFR: the byte it moves, the command word it is given and the response word it answers with. -/

namespace Sys2Proof

/-- A byte is 8 bits (R8). -/
abbrev Byte := BitVec 8

/-- The command word `CMD[63:0]`, delivered whole on the command port (R8, R45). -/
abbrev CommandWord := BitVec 64

/-- The response word `RSP[31:0]` (R8, R18). -/
abbrev ResponseWord := BitVec 32

end Sys2Proof
end

