-- ==== Sys2Proof/Machine/Bits.lean ====
section
/-! DEFINITION. Bit fields: how a word is put together from its fields (R9). -/

namespace Sys2Proof

/-- The word of `w` bits that holds `v` at its bits [pos+n-1 : pos] and 0 everywhere else.
A concatenation of fields is the OR of its fields, each in its place (R9). -/
def placeAt (w pos : Nat) {n : Nat} (v : BitVec n) : BitVec w := v.setWidth w <<< pos

end Sys2Proof
end

