-- ==== Sys2Proof/Syntax.lean ====
section
/-! DEFINITION. The commands: one constructor per row of spec/opcode_table.json, each operand at the width of its field. -/

namespace Sys2Proof

/-- The five commands (R2, R46).
An operand has exactly the bits its field has in the command word (R47 to R50, R58), so every term is a command
that a host can issue. -/
inductive Instr where
  /-- `POLL dcap`: extract at most one complete, validated packet (R71); `dcap` is the destination capacity -/
  | poll (dcap : BitVec 16)
  /-- `RESET`: discard all buffered bytes (R85) -/
  | reset
  /-- `CLASSIFY b0, plen`: classify a packet of length `plen` whose first byte is `b0` (R86) -/
  | classify (b0 : Byte) (plen : BitVec 16)
  /-- `RTCM_LEN h0, …, h4`: the payload length in a header (R68) -/
  | rtcmLen (h0 h1 h2 h3 h4 : Byte)
  /-- `RTCM_TYPE h0, …, h4`: the message type in a header (R69) -/
  | rtcmType (h0 h1 h2 h3 h4 : Byte)
  deriving DecidableEq, Repr

end Sys2Proof
end

