-- ==== Sys2Proof/Decode.lean ====
section
/-! DEFINITION. The decoder, total on all 64-bit words, which refuses a word by a named reason (R51); and the encoder (R60). -/

namespace Sys2Proof

/-- The mnemonics of the opcode table (R46). -/
inductive Mnemonic where
  | poll | reset | classify | rtcmLen | rtcmType
  deriving DecidableEq, Repr

/-- One row of the opcode table: a word `w` is that row's when `w &&& mask = pattern` (R51). -/
structure OpcodeRow where
  mnemonic : Mnemonic
  mask : CommandWord
  pattern : CommandWord
  deriving DecidableEq, Repr

/-- Why a word is illegal (R51, R62): its opcode is reserved, or a must-be-zero field is not zero. -/
inductive DecodeError where
  /-- `CMD[3:0]` is 0x0 or one of 0x6 to 0xF -/
  | reservedOpcode
  /-- the opcode is one of the five, and some must-be-zero bit is set -/
  | reservedField
  deriving DecidableEq, Repr

/-- The opcode table in OP order (R51). -/
def opcodeTable : List OpcodeRow :=
  [ ⟨.poll,     0xFFFFFFFFFF0000FF#64, 0x0000000000000001#64⟩,
    ⟨.reset,    0xFFFFFFFFFFFFFFFF#64, 0x0000000000000002#64⟩,
    ⟨.classify, 0xFFFFFFFF000000FF#64, 0x0000000000000003#64⟩,
    ⟨.rtcmLen,  0xFFFF0000000000FF#64, 0x0000000000000004#64⟩,
    ⟨.rtcmType, 0xFFFF0000000000FF#64, 0x0000000000000005#64⟩ ]

/-- The row's test on a word (R51). -/
def OpcodeRow.accepts (r : OpcodeRow) (w : CommandWord) : Bool := w &&& r.mask == r.pattern

/-- `OP = CMD[3:0]` (R45). -/
def opcodeField (w : CommandWord) : BitVec 4 := w.extractLsb' 0 4

/-- `DCAP = CMD[23:8]` (R47, R58). -/
def dcapField (w : CommandWord) : BitVec 16 := w.extractLsb' 8 16

/-- `B0 = CMD[15:8]` (R49, R58). -/
def b0Field (w : CommandWord) : Byte := w.extractLsb' 8 8

/-- `PLEN = CMD[31:16]` (R49, R58). -/
def plenField (w : CommandWord) : BitVec 16 := w.extractLsb' 16 16

/-- `Hk = CMD[8k+15 : 8k+8]`, header byte `k` (R50, R58). -/
def headerField (k : Nat) (w : CommandWord) : Byte := w.extractLsb' (8 * k + 8) 8

/-- The command of a row, its operands taken from the word (R58). -/
def readOperands (m : Mnemonic) (w : CommandWord) : Instr :=
  match m with
  | .poll => .poll (dcapField w)
  | .reset => .reset
  | .classify => .classify (b0Field w) (plenField w)
  | .rtcmLen => .rtcmLen (headerField 0 w) (headerField 1 w) (headerField 2 w) (headerField 3 w) (headerField 4 w)
  | .rtcmType => .rtcmType (headerField 0 w) (headerField 1 w) (headerField 2 w) (headerField 3 w) (headerField 4 w)

/-- The opcode is one of the five that are not reserved (R46). -/
def isCommandOpcode (op : BitVec 4) : Bool := 1 ≤ op.toNat && op.toNat ≤ 5

/-- Why a word that no row accepts is illegal (R51, R62). -/
def illegalReason (w : CommandWord) : DecodeError :=
  if isCommandOpcode (opcodeField w) then .reservedField else .reservedOpcode

/-- Decode a command word: the first row that accepts it, else the reason why it is illegal (R51). -/
def decode (w : CommandWord) : Except DecodeError Instr :=
  match opcodeTable.find? (·.accepts w) with
  | some r => .ok (readOperands r.mnemonic w)
  | none => .error (illegalReason w)

/-- The word a command is written as: its opcode at [3:0] and each operand in its field, all else zero
(R47 to R50, R60). -/
def encode : Instr → CommandWord
  | .poll dcap => placeAt 64 8 dcap ||| placeAt 64 0 0x1#4
  | .reset => placeAt 64 0 0x2#4
  | .classify b0 plen => placeAt 64 16 plen ||| placeAt 64 8 b0 ||| placeAt 64 0 0x3#4
  | .rtcmLen h0 h1 h2 h3 h4 =>
    placeAt 64 40 h4 ||| placeAt 64 32 h3 ||| placeAt 64 24 h2 ||| placeAt 64 16 h1 ||| placeAt 64 8 h0 |||
      placeAt 64 0 0x4#4
  | .rtcmType h0 h1 h2 h3 h4 =>
    placeAt 64 40 h4 ||| placeAt 64 32 h3 ||| placeAt 64 24 h2 ||| placeAt 64 16 h1 ||| placeAt 64 8 h0 |||
      placeAt 64 0 0x5#4

/-- The mnemonic of a command (R46). -/
def mnemonicOf : Instr → Mnemonic
  | .poll .. => .poll
  | .reset => .reset
  | .classify .. => .classify
  | .rtcmLen .. => .rtcmLen
  | .rtcmType .. => .rtcmType

/-- The command word whose bits are the low `nbits` bits of `w`, every bit above them zero. -/
def commandWord (nbits w : Nat) : CommandWord := BitVec.ofNat 64 (w % 2 ^ nbits)

/-- What the decoder reads from the command word whose bits are `w`, as the opcode table numbers them. -/
def decodeTableWord (nbits w : Nat) : Option Instr :=
  match decode (commandWord nbits w) with
  | .ok i => some i
  | .error _ => none

end Sys2Proof
end

