-- ==== Sys2Proof/Machine/Flags.lean ====
section
/-! DEFINITION. DFR has no condition flags (R20): a command reports its outcome in RSP alone.
This file holds the codes of RSP's fields and the layout of the word. -/

namespace Sys2Proof.Machine

/-- The outcome of a command (R52); codes 0x6 to 0xE are reserved and never produced. -/
inductive Status where
  | ok | packet | noPacket | bufferFull | bufferTooSmall | readFailure | illegal
  deriving DecidableEq, Repr

/-- The class of a packet (R53). -/
inductive PacketClass where
  | none | nmea | rtcm | unknown
  deriving DecidableEq, Repr

/-- Why a POLL found no packet, when it rejected a candidate (R54); code 3 is reserved and never produced. -/
inductive Diag where
  | none | reservedBits | crcMismatch
  deriving DecidableEq, Repr

/-- STATUS codes (R52). -/
def Status.code : Status → BitVec 4
  | .ok => 0x0
  | .packet => 0x1
  | .noPacket => 0x2
  | .bufferFull => 0x3
  | .bufferTooSmall => 0x4
  | .readFailure => 0x5
  | .illegal => 0xF

/-- CLASS codes (R53). -/
def PacketClass.code : PacketClass → BitVec 2
  | .none => 0
  | .nmea => 1
  | .rtcm => 2
  | .unknown => 3

/-- DIAG codes (R54). -/
def Diag.code : Diag → BitVec 2
  | .none => 0
  | .reservedBits => 1
  | .crcMismatch => 2

/-- What a command answers, field by field: the `{STATUS, CLASS, DIAG, DATA}` of the spec's pseudocode (R11, R55). -/
structure Response where
  status : Status
  cls : PacketClass
  diag : Diag
  data : BitVec 16
  deriving DecidableEq, Repr

/-- `RSP = {8'h00, DATA[15:0], DIAG[1:0], CLASS[1:0], STATUS[3:0]}` (R18, R55). -/
def Response.word (r : Response) : ResponseWord :=
  placeAt 32 8 r.data ||| placeAt 32 6 r.diag.code ||| placeAt 32 4 r.cls.code ||| placeAt 32 0 r.status.code

/-- `RSP.STATUS`, bits [3:0] (R18). -/
def rspStatus (w : ResponseWord) : BitVec 4 := w.extractLsb' 0 4

/-- `RSP.CLASS`, bits [5:4] (R18). -/
def rspClass (w : ResponseWord) : BitVec 2 := w.extractLsb' 4 2

/-- `RSP.DIAG`, bits [7:6] (R18). -/
def rspDiag (w : ResponseWord) : BitVec 2 := w.extractLsb' 6 2

/-- `RSP.DATA`, bits [23:8] (R18). -/
def rspData (w : ResponseWord) : BitVec 16 := w.extractLsb' 8 16

/-- `RSP[31:24]`, which always reads 0 (R18, R19). -/
def rspReserved (w : ResponseWord) : BitVec 8 := w.extractLsb' 24 8

/-- The value is the code of some STATUS that is not reserved (R52). -/
def isStatusCode (c : BitVec 4) : Bool := c.toNat ≤ 5 || c == 0xF

/-- The word holds no reserved output: [31:24] is 0, STATUS is a code that is not reserved, DIAG is not 3
(R18, R52, R54, R62; 93 item 2). -/
def rspLegal (w : ResponseWord) : Bool :=
  rspReserved w == 0 && isStatusCode (rspStatus w) && rspDiag w != 3

end Sys2Proof.Machine
end

