-- ==== Sys2Proof/Config.lean ====
section
/-! DEFINITION. What is fixed when a DFR is built (CAP and BAD_FRAME_POLICY), and the model's one free value. -/

namespace Sys2Proof

/-- What POLL does with a proven-invalid RTCM candidate (R7). -/
inductive BadFramePolicy where
  /-- drop everything up to and including the bad preamble -/
  | discard
  /-- leave the receive buffer as it is -/
  | retain
  deriving DecidableEq, Repr

/-- The build-time parameters (R6, R7, R13, R21).
The machine's state carries one of these, which no step changes, so that a statement about every state is a
statement about every capacity and both policies (DESIGN CHOICE, safe; log 1). -/
structure Config where
  /-- `CAP`, the receive-buffer capacity in bytes -/
  cap : Nat
  /-- `BAD_FRAME_POLICY` -/
  badFramePolicy : BadFramePolicy
  deriving DecidableEq, Repr

/-- The defaults: CAP = 1024 (R6) and DISCARD (R7). -/
def Config.default : Config := ⟨1024, .discard⟩

/-- The legal range of CAP, 6 ≤ CAP ≤ 65535 (R6).
A configuration outside it is no DFR; statements that need the range assume it (log 13). -/
abbrev Config.Legal (c : Config) : Prop := 6 ≤ c.cap ∧ c.cap ≤ 65535

/-- `UW = ceil(log2(CAP+1))`, the width of the fill level USED (R8). -/
def Config.usedWidth (c : Config) : Nat := Nat.clog 2 (c.cap + 1)

/-- FREE VALUE (DESIGN CHOICE, safe; log 3): what reading position `k` of a byte sequence gives where the sequence
has no byte.
The spec gives such a position no value (R14, 93 item 3) and no command reads one; nothing can be proved of it. -/
opaque Config.absentByte : Nat → Byte

end Sys2Proof
end

