-- ==== Sys2Proof/Machine/Operands.lean ====
section
/-! DEFINITION. The operands of the commands as their rules use them, and the bytes those rules name. -/

namespace Sys2Proof.Machine

/-- `'$'`, the start marker of an NMEA line (R12). -/
abbrev dollar : Byte := 0x24

/-- The preamble, the start marker of an RTCM3 frame (R56). -/
abbrev preamble : Byte := 0xD3

/-- `CR` (R12). -/
abbrev carriageReturn : Byte := 0x0D

/-- `LF` (R12). -/
abbrev lineFeed : Byte := 0x0A

/-- A start marker: `'$'` or 0xD3 (R75). -/
def isMarker (b : Byte) : Bool := b == dollar || b == preamble

/-- `DCAP = zext_17(CMD[23:8])`, so that `span + 1` can be compared with it (R10, R58). -/
def destCapacity (dcap : BitVec 16) : Nat := (dcap.setWidth 17).toNat

/-- The five header bytes of format H as the byte sequence `h` of the primitives (R50, R68, R69). -/
def headerBytes (h0 h1 h2 h3 h4 : Byte) : List Byte := [h0, h1, h2, h3, h4]

/-- `h[k]`, byte `k` of a byte sequence (R9).
Where the sequence has no byte `k` it is the free value `Config.absentByte`; no command reads there (log 3). -/
def byteAt (h : List Byte) (k : Nat) : Byte := h.getD k (Config.absentByte k)

end Sys2Proof.Machine
end

