-- ==== Sys2Proof/Machine/State.lean ====
section
/-! DEFINITION. The state of DFR and of its environment, as plain data, the reasons a step can stop, and the state after power-on. -/

namespace Sys2Proof.Machine

/-- Host memory as (offset, byte) pairs in one canonical form: offsets strictly rising.
An offset that is not listed holds the host's own byte, which the model gives no value (R28, D15; log 6). -/
abbrev Memory := List Host.Cell

/-- The canonical form of a memory: offsets strictly rising, so none twice.
An unlisted offset has no value, so no entry can equal what an unlisted offset reads as. -/
abbrev Memory.wf (m : Memory) : Prop := m.Pairwise (fun a b => a.1 < b.1)

/-- What the outside may do between two commands, besides issuing a command (R40, R61, R102; log 4, log 10). -/
inductive Move where
  /-- `FEED`: the environment appends these bytes to the back of SRC -/
  | feed (bytes : List Byte)
  /-- `READERR k`: the next SrcRead answers error and drops `dropped` bytes (R27, R61) -/
  | readError (dropped : Nat)
  /-- the host gives the POLLs that follow another destination buffer, holding these bytes from offset 0 on -/
  | supplyDest (contents : List Byte)
  /-- power-on reset (R102) -/
  | powerOn
  deriving DecidableEq, Repr

/-- What happens next at the ports: a command word from the host (R23), or a move (R40). -/
inductive Event where
  | command (w : CommandWord)
  | move (m : Move)
  deriving DecidableEq, Repr

/-- The state: DFR's own (`rx`, which holds USED as its length, and `rsp`; R13), its build-time parameters
(`config`), and the environment's (`src`, `readError`, `dest`, `pending`; R13, R25, R40). -/
structure State where
  /-- `CAP` and `BAD_FRAME_POLICY` (R6, R7); no step changes them -/
  config : Config
  /-- `RX[0..USED)`, the meaningful bytes of the receive buffer, oldest first (R14); `USED` is the length (R15).
  Bytes at an index ≥ USED hold no value and are absent, as R14 allows (log 2). -/
  rx : List Byte
  /-- `RSP` (R18) -/
  rsp : ResponseWord
  /-- `SRC`, the bytes the byte source has available, oldest first (R25, R26) -/
  src : List Byte
  /-- the environment's answer to the next SrcRead: `none`, it succeeds; `some k`, it answers error and drops `k`
  bytes, or as many as were asked for if those are fewer (R26, R27; log 5) -/
  readError : Option Nat
  /-- `DEST`, the destination buffer (R25, R28) -/
  dest : Memory
  /-- the command stream: what the host and the environment do next, in order (R13, R40) -/
  pending : List Event
  deriving DecidableEq, Repr

/-- Why the machine stops.
Both faults are the spec's own assertions, which no rule can reach (R42, R43, 93 item 9; log 14). -/
inductive Fault where
  /-- raised by Append when USED + |s| > CAP (R42); safe, and no command reaches it -/
  | appendBeyondCapacity
  /-- raised by Compact(k) when k > USED (R43); safe, and no command reaches it -/
  | compactBeyondUsed
  deriving DecidableEq, Repr

/-- Why a command has no meaning: none is refused, since every row of the table has its meaning. -/
inductive Refusal where
  /-- would be raised by `exec` for an instruction with no meaning yet; safe; no arm raises it -/
  | notModelled (mnemonic : String)
  deriving DecidableEq, Repr

/-- The outcome of a command or a step. -/
abbrev Result := Host.Outcome State Fault Refusal

/-- Right after power-on (R22, R102), with the default parameters (R6, R7): USED = 0, no byte of RX holds a value,
RSP = 0x00000000.
The environment's fields are DESIGN CHOICE (unsafe; log 4): nothing waits in SRC, no read error, nothing known of
DEST, no command pending. -/
def State.reset : State where
  config := Config.default
  rx := []
  rsp := 0x00000000#32
  src := []
  readError := none
  dest := []
  pending := []

end Sys2Proof.Machine
end

