-- ==== Sys2Proof/Machine/Ops.lean ====
section
/-! DEFINITION. The named operations over the state: field updates, the response register, the byte source, the destination
buffer, the buffer manager, power-on and the command port.
DFR takes no exception and returns from none (R89, R95): every outcome is reported by `State.respond`. -/

namespace Sys2Proof.Machine

/-! ### Field updates -/

def State.withRx (s : State) (rx : List Byte) : State := { s with rx := rx }
def State.withRsp (s : State) (rsp : ResponseWord) : State := { s with rsp := rsp }
def State.withSrc (s : State) (src : List Byte) : State := { s with src := src }
def State.withReadError (s : State) (e : Option Nat) : State := { s with readError := e }
def State.withDest (s : State) (dest : Memory) : State := { s with dest := dest }
def State.withPending (s : State) (pending : List Event) : State := { s with pending := pending }

/-- Go on with the next state of an outcome; a fault or a refusal stays as it is. -/
def andThen (o : Result) (f : State → Result) : Result :=
  match o with
  | .next s => f s
  | .fault r => .fault r
  | .refused r => .refused r

/-! ### Registers -/

/-- `USED`, the fill level: how many bytes of RX are meaningful (R14, R15). -/
abbrev State.used (s : State) : Nat := s.rx.length

/-- `USED` as the register of UW bits (R8, R15). -/
def State.usedRegister (s : State) : BitVec s.config.usedWidth := BitVec.ofNat _ s.used

/-- `CAP − USED`, the bytes RX has room for (R72). -/
abbrev State.room (s : State) : Nat := s.config.cap - s.used

/-- `RSP <- {..}`: write all of the response register (R11, R18).
Every command ends with it, and it is the only way an outcome is reported (R89). -/
def State.respond (s : State) (r : Response) : State := s.withRsp r.word

/-! ### Host memory -/

/-- The byte at an offset; `none` where the model gives it no value (log 6). -/
def Memory.read (m : Memory) (k : Nat) : Option Byte :=
  match m with
  | [] => none
  | (a, b) :: rest => if a = k then some b else Memory.read rest k

/-- Store one byte, keeping the canonical form. -/
def Memory.write (m : Memory) (k : Nat) (v : Byte) : Memory :=
  match m with
  | [] => [(k, v)]
  | (a, b) :: rest =>
    if k < a then (k, v) :: (a, b) :: rest
    else if k = a then (k, v) :: rest
    else (a, b) :: Memory.write rest k v

/-- Store bytes at `k`, `k+1`, … in that order. -/
def Memory.writeBytes (m : Memory) (k : Nat) (bytes : List Byte) : Memory :=
  match bytes with
  | [] => m
  | v :: rest => Memory.writeBytes (m.write k v) (k + 1) rest

/-- `DestWrite(k, v)` (R28). -/
def State.destWrite (s : State) (k : Nat) (v : Byte) : State := s.withDest (s.dest.write k v)

/-- `DestWrite(k, …)` for the bytes of a sequence, at ascending offsets from `k` on (R28, R81). -/
def State.destWriteBytes (s : State) (k : Nat) (bytes : List Byte) : State := s.withDest (s.dest.writeBytes k bytes)

/-! ### The byte source -/

/-- `SrcAvail()`: the number of bytes available now, with no side effect (R26). -/
abbrev State.srcAvail (s : State) : Nat := s.src.length

/-- What a SrcRead answers (R26). -/
inductive ReadAnswer where
  | bytes (r : List Byte)
  | error
  deriving DecidableEq, Repr

/-- `SrcRead(n)`, for 1 ≤ n ≤ |SRC|: the first `n` bytes, removed from SRC; or an error, and the environment removes
between 0 and `n` bytes from the front of SRC (R26, R27).
The error that was announced is used up by the read it answers (R61; log 5). -/
def State.srcRead (s : State) (n : Nat) : ReadAnswer × State :=
  match s.readError with
  | none => (.bytes (s.src.take n), s.withSrc (s.src.drop n))
  | some k => (.error, (s.withSrc (s.src.drop (min k n))).withReadError none)

/-! ### The buffer manager -/

/-- `Append(bs)`: add the bytes to the end of RX (R42). -/
def State.append (s : State) (bs : List Byte) : Result :=
  if s.used + bs.length ≤ s.config.cap then .next (s.withRx (s.rx ++ bs)) else .fault .appendBeyondCapacity

/-- `Compact(k)`: discard the first `k` bytes of RX, the rest moving to offset 0 (R43). -/
def State.compact (s : State) (k : Nat) : Result :=
  if k ≤ s.used then .next (s.withRx (s.rx.drop k)) else .fault .compactBeyondUsed

/-- `Clear()`: USED <- 0 (R44). -/
def State.clear (s : State) : State := s.withRx []

/-! ### Power-on, the moves of the outside, and the command port -/

/-- Power-on reset: USED = 0, RX without a value, RSP = 0x00000000; parameters, SRC and DEST untouched (R22, R102). -/
def State.powerOn (s : State) : State := s.clear.withRsp 0x00000000#32

/-- A move of the host or the environment between two commands (R40, R61). -/
def State.applyMove (s : State) (m : Move) : State :=
  match m with
  | .feed bytes => s.withSrc (s.src ++ bytes)
  | .readError dropped => s.withReadError (some dropped)
  | .supplyDest contents => s.withDest (Memory.writeBytes [] 0 contents)
  | .powerOn => s.powerOn

/-- Take what happens next from the ports: the event and the state it happens in; `none` when nothing is waiting
(R23, R32, R36). -/
def State.takeEvent (s : State) : Option (Event × State) :=
  match s.pending with
  | [] => none
  | e :: rest => some (e, s.withPending rest)

/-- Put a command word on the command port, in front of all that is waiting there. -/
def State.issue (s : State) (w : CommandWord) : State := s.withPending (.command w :: s.pending)

end Sys2Proof.Machine
end

