-- ==== Sys2Proof/Machine/RtcmPrimitives.lean ====
section
/-! DEFINITION. The RTCM3 framing primitives and CRC-24Q (40_rtcm_primitives.md), and the commands RTCM_LEN and RTCM_TYPE. -/

namespace Sys2Proof.Machine

/-- `payload_length(h) = { h[1][1:0], h[2][7:0] }`, 10 bits (R63). -/
def payloadLength (h : List Byte) : BitVec 10 :=
  placeAt 10 8 ((byteAt h 1).extractLsb' 0 2) ||| placeAt 10 0 (byteAt h 2)

/-- `message_type(h) = { h[3][7:0], h[4][7:4] }`, 12 bits (R64). -/
def messageType (h : List Byte) : BitVec 12 :=
  placeAt 12 4 (byteAt h 3) ||| placeAt 12 0 ((byteAt h 4).extractLsb' 4 4)

/-- `reserved_ok(h)`: `h[1][7:2]` is 0b000000 (R65). -/
def reservedOk (h : List Byte) : Bool := (byteAt h 1).extractLsb' 2 6 == 0#6

/-- The CRC-24Q generator 0x1864CFB (R66). -/
def crcPolynomial : BitVec 25 := 0x1864CFB

/-- One of the 8 bit steps: shift left, and if bit 24 is now 1 subtract the generator (R66). -/
def crcShift (c : BitVec 25) : BitVec 25 :=
  let d := c <<< 1
  if d.getLsbD 24 then d ^^^ crcPolynomial else d

/-- `n` bit steps. -/
def crcShifts : Nat → BitVec 25 → BitVec 25
  | 0, c => c
  | n + 1, c => crcShifts n (crcShift c)

/-- One byte: it enters at bits [23:16], then 8 bit steps (R66). -/
def crcByte (c : BitVec 25) (b : Byte) : BitVec 25 := crcShifts 8 (c ^^^ placeAt 25 16 b)

/-- `crc24(s)`: seed 0, the bytes in order, the result is `c[23:0]` (R66). -/
def crc24 (s : List Byte) : BitVec 24 := (s.foldl crcByte 0).setWidth 24

/-- `trailer(h, L) = { h[3+L], h[4+L], h[5+L] }`, the CRC a frame carries, big-endian (R67). -/
def trailer (h : List Byte) (l : Nat) : BitVec 24 :=
  placeAt 24 16 (byteAt h (3 + l)) ||| placeAt 24 8 (byteAt h (4 + l)) ||| placeAt 24 0 (byteAt h (5 + l))

/-- `RTCM_LEN h0, h1, h2, h3, h4` (R68). -/
def execRtcmLen (h0 h1 h2 h3 h4 : Byte) (s : State) : Result :=
  .next (s.respond ⟨.ok, .none, .none, (payloadLength (headerBytes h0 h1 h2 h3 h4)).setWidth 16⟩)

/-- `RTCM_TYPE h0, h1, h2, h3, h4` (R69). -/
def execRtcmType (h0 h1 h2 h3 h4 : Byte) (s : State) : Result :=
  .next (s.respond ⟨.ok, .none, .none, (messageType (headerBytes h0 h1 h2 h3 h4)).setWidth 16⟩)

end Sys2Proof.Machine
end

