-- ==== Sys2Proof/Machine/Deframer.lean ====
section
/-! DEFINITION. The de-framer commands (41_deframer.md): POLL, RESET, CLASSIFY, and what an illegal word does. -/

namespace Sys2Proof.Machine

/-! ### POLL -/

/-- `RSP <- {NO_PACKET, NONE, d, 0}` (R55). -/
def noPacket (d : Diag) (s : State) : State := s.respond ⟨.noPacket, .none, d, 0⟩

/-- `Reject(i, d)`: a proven-invalid RTCM candidate at index `i`, by BAD_FRAME_POLICY (R79). -/
def reject (i : Nat) (d : Diag) (s : State) : Result :=
  match s.config.badFramePolicy with
  | .discard => andThen (s.compact (i + 1)) fun t => .next (noPacket d t)
  | .retain => .next (noPacket d s)

/-- `Extract(i, span, cls, DCAP)`: the destination capacity check (R80), else the copy, the NUL, the compaction (R81). -/
def extract (i span : Nat) (cls : PacketClass) (dcap : BitVec 16) (s : State) : Result :=
  if destCapacity dcap < span + 1 then .next (s.respond ⟨.bufferTooSmall, cls, .none, BitVec.ofNat 16 span⟩)
  else
    andThen (((s.destWriteBytes 0 ((s.rx.drop i).take span)).destWrite span 0x00).compact (i + span)) fun t =>
      .next (t.respond ⟨.packet, cls, .none, BitVec.ofNat 16 span⟩)

/-- The place of the first pair CR LF in a byte sequence (R76). -/
def findCrLf : List Byte → Option Nat
  | a :: b :: rest =>
    if a = carriageReturn ∧ b = lineFeed then some 0 else (findCrLf (b :: rest)).map (· + 1)
  | _ => none

/-- `NmeaCandidate(i, DCAP)`: the search for CR LF starts at `i + 1` (R76). -/
def nmeaCandidate (i : Nat) (dcap : BitVec 16) (s : State) : Result :=
  match findCrLf (s.rx.drop (i + 1)) with
  | none => .next (noPacket .none s)
  | some k =>
    let j := i + 1 + k
    extract i (j + 2 - i) .nmea dcap s

/-- `RtcmCandidate(i, DCAP)`: the waits (R77) and the checks (R78) in their order. -/
def rtcmCandidate (i : Nat) (dcap : BitVec 16) (s : State) : Result :=
  let a := s.used - i
  let h := s.rx.drop i
  let l := (payloadLength h).toNat
  if a < 6 then .next (noPacket .none s)
  else if !reservedOk h then reject i .reservedBits s
  else if a < 6 + l then .next (noPacket .none s)
  else if crc24 (h.take (3 + l)) ≠ trailer h l then reject i .crcMismatch s
  else extract i (6 + l) .rtcm dcap s

/-- The index of the first start marker (R75). -/
def firstMarker (rx : List Byte) : Option Nat := rx.findIdx? isMarker

/-- Steps 2 to 5 of POLL: the first start marker alone decides the outcome (R75); none is NO_PACKET (R82). -/
def pollScan (dcap : BitVec 16) (s : State) : Result :=
  match firstMarker s.rx with
  | none => .next (noPacket .none s)
  | some i => if byteAt s.rx i = dollar then nmeaCandidate i dcap s else rtcmCandidate i dcap s

/-- `POLL dcap`: step 1, the ingest (R72), with BUFFER_FULL (R73) and READ_FAILURE (R74), then the scan (R71). -/
def execPoll (dcap : BitVec 16) (s : State) : Result :=
  let room := s.room
  let avail := s.srcAvail
  if 0 < avail then
    if room = 0 then .next (s.respond ⟨.bufferFull, .none, .none, 0⟩)
    else
      match s.srcRead (min avail room) with
      | (.error, t) => .next (t.respond ⟨.readFailure, .none, .none, 0⟩)
      | (.bytes r, t) => andThen (t.append r) (pollScan dcap)
  else pollScan dcap s

/-! ### RESET, CLASSIFY, illegal words -/

/-- `RESET`: Clear, and all of RSP is 0 (R85). -/
def execReset (s : State) : Result := .next (s.clear.respond ⟨.ok, .none, .none, 0⟩)

/-- The class of a packet of length `plen` whose first byte is `b0` (R86). -/
def classOf (b0 : Byte) (plen : BitVec 16) : PacketClass :=
  if plen = 0 then .unknown
  else if b0 = dollar then .nmea
  else if b0 = preamble then .rtcm
  else .unknown

/-- `CLASSIFY b0, plen` (R86). -/
def execClassify (b0 : Byte) (plen : BitVec 16) (s : State) : Result :=
  .next (s.respond ⟨.ok, classOf b0 plen, .none, 0⟩)

/-- An illegal command word: RSP = 0x0000000F and nothing else (R87; log 8). -/
def execIllegal (s : State) : Result := .next (s.respond ⟨.illegal, .none, .none, 0⟩)

end Sys2Proof.Machine
end

