-- ==== Sys2Proof/Machine/Dispatch.lean ====
section
/-! DEFINITION. One arm per command: each is one call of that command's meaning. -/

namespace Sys2Proof.Machine

/-- Execute one command (R2, R46). -/
def exec (i : Instr) (s : State) : Host.Outcome State Fault Refusal :=
  match i with
  | .poll dcap => Sys2Proof.Machine.execPoll dcap s
  | .reset => Sys2Proof.Machine.execReset s
  | .classify b0 plen => Sys2Proof.Machine.execClassify b0 plen s
  | .rtcmLen h0 h1 h2 h3 h4 => Sys2Proof.Machine.execRtcmLen h0 h1 h2 h3 h4 s
  | .rtcmType h0 h1 h2 h3 h4 => Sys2Proof.Machine.execRtcmType h0 h1 h2 h3 h4 s

end Sys2Proof.Machine
end

