-- ==== Sys2Proof/Machine/Step.lean ====
section
/-! DEFINITION. One step: what is next on the ports happens, whole (R32, R36). -/

namespace Sys2Proof.Machine

/-- One step.
A command word is decoded and executed, an illegal one as R87 says; a move of the outside is made; where nothing is
waiting, DFR stays as it is until a command comes (R20, R32, R40; log 4). -/
def step (s : State) : Host.Outcome State Fault Refusal :=
  match s.takeEvent with
  | none => .next s
  | some (.move m, t) => .next (t.applyMove m)
  | some (.command w, t) =>
    match decode w with
    | .ok i => exec i t
    | .error _ => execIllegal t

/-- `s` with this command word next on the command port (log 4). -/
def State.withFetchWord (s : State) (nbits w : Nat) : State := s.issue (commandWord nbits w)

end Sys2Proof.Machine
end

