-- ==== Sys2Proof/WellFormed.lean ====
section
/-! DEFINITION. Which written commands are commands: the operand ranges the assembler checks (R60).
A term of `Instr` needs no check, since its operands have the widths of their fields.
A source line holds numbers as they are written, and a number out of its range is an assembly error and no encoding. -/

namespace Sys2Proof

/-- One source line of the assembler syntax, its operands still plain numbers (R60). -/
inductive SourceLine where
  | poll (dcap : Nat)
  | reset
  | classify (b0 plen : Nat)
  | rtcmLen (h0 h1 h2 h3 h4 : Nat)
  | rtcmType (h0 h1 h2 h3 h4 : Nat)
  /-- `.word64 0x…`: a literal word, an illegal one too -/
  | word64 (w : Nat)
  deriving DecidableEq, Repr

/-- The number `n` is the value of a field of `width` bits. -/
def fitsField (width n : Nat) : Bool := n < 2 ^ width

/-- The line's operands are in range (R60): otherwise it is an assembly error. -/
def SourceLine.wellFormed : SourceLine → Bool
  | .poll dcap => fitsField 16 dcap
  | .reset => true
  | .classify b0 plen => fitsField 8 b0 && fitsField 16 plen
  | .rtcmLen h0 h1 h2 h3 h4 | .rtcmType h0 h1 h2 h3 h4 =>
    fitsField 8 h0 && fitsField 8 h1 && fitsField 8 h2 && fitsField 8 h3 && fitsField 8 h4
  | .word64 w => fitsField 64 w

end Sys2Proof
end

