-- ==== Sys2Proof/Machine/Assembler.lean ====
section
/-! DEFINITION. The assembler: the syntax of the commands (R60) and the directives FEED, READERR and EXPECT (R61), read from
text into command words and moves. What the spec leaves open of the notation is in log 12. -/

namespace Sys2Proof.Machine

/-- The command a source line writes; `.word64` writes a word, not a command. -/
def commandOf : SourceLine → Option Instr
  | .poll dcap => some (.poll (BitVec.ofNat 16 dcap))
  | .reset => some .reset
  | .classify b0 plen => some (.classify (BitVec.ofNat 8 b0) (BitVec.ofNat 16 plen))
  | .rtcmLen h0 h1 h2 h3 h4 =>
    some (.rtcmLen (BitVec.ofNat 8 h0) (BitVec.ofNat 8 h1) (BitVec.ofNat 8 h2) (BitVec.ofNat 8 h3) (BitVec.ofNat 8 h4))
  | .rtcmType h0 h1 h2 h3 h4 =>
    some (.rtcmType (BitVec.ofNat 8 h0) (BitVec.ofNat 8 h1) (BitVec.ofNat 8 h2) (BitVec.ofNat 8 h3) (BitVec.ofNat 8 h4))
  | .word64 _ => none

/-- The word a line assembles to; `none` is an assembly error, an operand out of its range (R60). -/
def assemble (l : SourceLine) : Option CommandWord :=
  if l.wellFormed then
    match l with
    | .word64 w => some (BitVec.ofNat 64 w)
    | other => (commandOf other).map encode
  else none

/-- One line of a test program: a command, or one of the three directives (R61). -/
inductive ScriptLine where
  | source (l : SourceLine)
  | feed (bytes : List Byte)
  | readError (dropped : Nat)
  /-- a note on the RSP the rules give: it moves nothing -/
  | expect
  deriving DecidableEq, Repr

/-- What a line makes happen at the ports; `none` is an assembly error. -/
def ScriptLine.events : ScriptLine → Option (List Event)
  | .source l => (assemble l).map fun w => [.command w]
  | .feed bytes => some [.move (.feed bytes)]
  | .readError dropped => some [.move (.readError dropped)]
  | .expect => some []

/-! ### Reading the text of a line -/

/-- A blank. -/
def isBlank (c : Char) : Bool := c.toNat == 0x20 || c.toNat == 0x09

/-- The text without the blanks at its two ends. -/
def trimBlanks (cs : List Char) : List Char := ((cs.dropWhile isBlank).reverse.dropWhile isBlank).reverse

/-- The pieces between commas. -/
def splitCommas : List Char → List (List Char)
  | [] => [[]]
  | c :: cs =>
    if c.toNat = 0x2C then [] :: splitCommas cs
    else
      match splitCommas cs with
      | [] => [[c]]
      | p :: ps => (c :: p) :: ps

/-- The value of a digit in base 10 or 16. -/
def digitValue (base : Nat) (c : Char) : Option Nat :=
  let n := c.toNat
  let v :=
    if 0x30 ≤ n ∧ n ≤ 0x39 then n - 0x30
    else if 0x41 ≤ n ∧ n ≤ 0x46 then n - 0x41 + 10
    else if 0x61 ≤ n ∧ n ≤ 0x66 then n - 0x61 + 10
    else base
  if v < base then some v else none

/-- The number the digits write after those that gave `acc`. -/
def readDigits (base acc : Nat) : List Char → Option Nat
  | [] => some acc
  | c :: cs =>
    match digitValue base c with
    | none => none
    | some v => readDigits base (acc * base + v) cs

/-- A number, in decimal or with `0x` in hex (R60). -/
def readNumber (cs : List Char) : Option Nat :=
  match cs with
  | [] => none
  | [c] => readDigits 10 0 [c]
  | '0' :: 'x' :: ds => if ds.isEmpty then none else readDigits 16 0 ds
  | c :: d :: ds => readDigits 10 0 (c :: d :: ds)

/-- All the numbers, if each piece is one. -/
def readNumbers : List (List Char) → Option (List Nat)
  | [] => some []
  | p :: ps =>
    match readNumber (trimBlanks p), readNumbers ps with
    | some n, some ns => some (n :: ns)
    | _, _ => none

/-- The operands of a line: numbers separated by commas, or none at all (R60). -/
def readOperandList (cs : List Char) : Option (List Nat) :=
  if (trimBlanks cs).isEmpty then some [] else readNumbers (splitCommas cs)

/-- The bytes of the text of a FEED, where `\r` is 0x0D and `\n` is 0x0A (R61). -/
def textBytes : List Char → Option (List Byte)
  | [] => some []
  | '\\' :: 'r' :: cs => (textBytes cs).map (0x0D :: ·)
  | '\\' :: 'n' :: cs => (textBytes cs).map (0x0A :: ·)
  | c :: cs =>
    if c.toNat ≤ 0x7F ∧ c.toNat ≠ 0x22 ∧ c.toNat ≠ 0x5C then (textBytes cs).map (BitVec.ofNat 8 c.toNat :: ·) else none

/-- The bytes of a FEED: numbers of one byte each, or a text between two quotes (R61). -/
def feedBytes (cs : List Char) : Option (List Byte) :=
  match trimBlanks cs with
  | [] => none
  | c :: rest =>
    if c.toNat = 0x22 then
      match rest.reverse with
      | q :: text => if q.toNat = 0x22 then textBytes text.reverse else none
      | [] => none
    else
      match readNumbers (splitCommas (c :: rest)) with
      | some ns => if ns.all (fitsField 8) then some (ns.map (BitVec.ofNat 8)) else none
      | none => none

/-- The line a name and its operand text write. -/
def readNamed (name operands : List Char) : Option ScriptLine :=
  if name = ['F', 'E', 'E', 'D'] then (feedBytes operands).map .feed
  else if name = ['E', 'X', 'P', 'E', 'C', 'T'] then some .expect
  else
    match readOperandList operands with
    | none => none
    | some ns =>
      if name = ['R', 'E', 'A', 'D', 'E', 'R', 'R'] then
        match ns with
        | [k] => some (.readError k)
        | _ => none
      else if name = ['P', 'O', 'L', 'L'] then
        match ns with
        | [dcap] => some (.source (.poll dcap))
        | _ => none
      else if name = ['R', 'E', 'S', 'E', 'T'] then
        match ns with
        | [] => some (.source .reset)
        | _ => none
      else if name = ['C', 'L', 'A', 'S', 'S', 'I', 'F', 'Y'] then
        match ns with
        | [b0, plen] => some (.source (.classify b0 plen))
        | _ => none
      else if name = ['R', 'T', 'C', 'M', '_', 'L', 'E', 'N'] then
        match ns with
        | [h0, h1, h2, h3, h4] => some (.source (.rtcmLen h0 h1 h2 h3 h4))
        | _ => none
      else if name = ['R', 'T', 'C', 'M', '_', 'T', 'Y', 'P', 'E'] then
        match ns with
        | [h0, h1, h2, h3, h4] => some (.source (.rtcmType h0 h1 h2 h3 h4))
        | _ => none
      else if name = ['.', 'w', 'o', 'r', 'd', '6', '4'] then
        match ns with
        | [w] => some (.source (.word64 w))
        | _ => none
      else none

/-- Read one line of text: the mnemonic first, then its operands (R60, R61). -/
def readLine (cs : List Char) : Option ScriptLine :=
  let t := trimBlanks cs
  readNamed (t.takeWhile (!isBlank ·)) (t.dropWhile (!isBlank ·))

/-- The events of a program, its lines in order; `none` if some line is an error. -/
def readProgram : List (List Char) → Option (List Event)
  | [] => some []
  | cs :: lines =>
    match (readLine cs).bind ScriptLine.events, readProgram lines with
    | some es, some rest => some (es ++ rest)
    | _, _ => none

end Sys2Proof.Machine
end

