-- ==== Sys2Proof/Machine/Instances.lean ====
section
/-! DEFINITION. Several de-framers: the product of single ones, which share nothing (R99). -/

namespace Sys2Proof.Machine

/-- Several instances, each with its own state. -/
abbrev Bank := List State

/-- One step of instance `k`; the others stay as they are (R99).
Where there is no instance `k`, nothing happens (log 11). -/
def bankStep (k : Nat) (bank : Bank) : Host.Outcome Bank Fault Refusal :=
  match bank[k]? with
  | none => .next bank
  | some s =>
    match step s with
    | .next t => .next (bank.set k t)
    | .fault r => .fault r
    | .refused r => .refused r

end Sys2Proof.Machine
end

