-- ==== Sys2Proof/Machine/Phase.lean ====
section
/-! DEFINITION. The three implicit states of the receive buffer (R16), as predicates over what the next POLL would answer. -/

namespace Sys2Proof.Machine

/-- The RSP a command leaves, if it ends in a next state. -/
def responseOf (o : Result) : Option ResponseWord :=
  match o with
  | .next s => some s.rsp
  | .fault _ => none
  | .refused _ => none

/-- What the next POLL with no new bytes would answer. -/
def quietPoll (dcap : BitVec 16) (s : State) : Option ResponseWord := responseOf (exec (.poll dcap) (s.withSrc []))

/-- **empty**: USED = 0 (R16). -/
def State.isEmpty (s : State) : Prop := s.used = 0

/-- **accumulating**: USED > 0 and the next POLL with no new bytes would return NO_PACKET, whatever its DCAP (R16). -/
def State.isAccumulating (s : State) : Prop :=
  0 < s.used ∧ ∀ dcap, ∃ w, quietPoll dcap s = some w ∧ rspStatus w = Status.noPacket.code

/-- **packet-ready**: the next POLL would return PACKET or BUFFER_TOO_SMALL, whatever its DCAP (R16). -/
def State.isPacketReady (s : State) : Prop :=
  ∀ dcap, ∃ w, quietPoll dcap s = some w ∧
    (rspStatus w = Status.packet.code ∨ rspStatus w = Status.bufferTooSmall.code)

end Sys2Proof.Machine
end

