-- ==== Sys2Proof/Safety.lean ====
section
/-! DEFINITION. The words claims are made in: the invariant of the machine, and what a receive buffer holds as the rules of
41_deframer.md say it, in terms of the bytes alone (none of these predicates calls the scan or the checks of the model). -/

namespace Sys2Proof.Machine

/-! ### The invariant -/

/-- What holds at every command boundary: CAP in its legal range (R6), USED ≤ CAP (R15), no reserved output in RSP
(R18, R62), and DEST in its canonical form. -/
abbrev State.Inv (s : State) : Prop :=
  s.config.Legal ∧ s.rx.length ≤ s.config.cap ∧ rspLegal s.rsp = true ∧ s.dest.wf

/-! ### What a receive buffer holds -/

/-- No byte is a start marker (R75). -/
abbrev MarkerFree (rx : List Byte) : Prop := ∀ b ∈ rx, b ≠ 0x24#8 ∧ b ≠ 0xD3#8

/-- The first start marker of the buffer is a `'$'`, at index `i` (R75, R76). -/
abbrev NmeaAt (rx : List Byte) (i : Nat) : Prop := MarkerFree (rx.take i) ∧ rx[i]? = some 0x24#8

/-- The first start marker of the buffer is a 0xD3, at index `i` (R75, R77). -/
abbrev RtcmAt (rx : List Byte) (i : Nat) : Prop := MarkerFree (rx.take i) ∧ rx[i]? = some 0xD3#8

/-- The bytes at `j` and `j + 1` are CR LF. -/
abbrev CrLfAt (rx : List Byte) (j : Nat) : Prop := rx[j]? = some 0x0D#8 ∧ rx[j + 1]? = some 0x0A#8

/-- `j` is the place of the first CR LF after index `i` (R76). -/
abbrev FirstCrLfAfter (rx : List Byte) (i j : Nat) : Prop :=
  i + 1 ≤ j ∧ CrLfAt rx j ∧ ∀ m < j, i + 1 ≤ m → ¬ CrLfAt rx m

/-- There is no CR LF after index `i` (R76). -/
abbrev NoCrLfAfter (rx : List Byte) (i : Nat) : Prop := ∀ m < rx.length, i + 1 ≤ m → ¬ CrLfAt rx m

/-- The 10-bit length in header bytes 1 and 2, as a number (R63). -/
def lengthOf (h1 h2 : Byte) : Nat := h1.toNat % 4 * 256 + h2.toNat

/-- Three bytes as a 24-bit number, the first the most significant (R67). -/
def bigEndian24 (c2 c1 c0 : Byte) : Nat := c2.toNat * 65536 + c1.toNat * 256 + c0.toNat

/-- From index `i` on the buffer holds at least 6 bytes, and bytes 1 and 2 from there are `h1` and `h2` (R77). -/
abbrev HeaderAt (rx : List Byte) (i : Nat) (h1 h2 : Byte) : Prop :=
  i + 6 ≤ rx.length ∧ rx[i + 1]? = some h1 ∧ rx[i + 2]? = some h2

/-- The bytes of a whole frame of payload length `l` are buffered from `i` on, and its CRC-24Q agrees with its trailer
(R66, R67, R78). -/
abbrev CrcAgrees (rx : List Byte) (i l : Nat) : Prop :=
  ∃ c2 c1 c0 : Byte, rx[i + 3 + l]? = some c2 ∧ rx[i + 4 + l]? = some c1 ∧ rx[i + 5 + l]? = some c0 ∧
    (crc24 ((rx.drop i).take (3 + l))).toNat = bigEndian24 c2 c1 c0

/-- The first start marker begins a valid RTCM3 frame of payload length `l` (R56, R78). -/
abbrev ValidFrameAt (rx : List Byte) (i l : Nat) : Prop :=
  RtcmAt rx i ∧ ∃ h1 h2, HeaderAt rx i h1 h2 ∧ h1.toNat < 4 ∧ l = lengthOf h1 h2 ∧ i + 6 + l ≤ rx.length ∧ CrcAgrees rx i l

/-- A complete packet is the first candidate: its index, its span and its class (R76, R78). -/
def PacketAt (rx : List Byte) (i span : Nat) (cls : PacketClass) : Prop :=
  (cls = .nmea ∧ NmeaAt rx i ∧ ∃ j, FirstCrLfAfter rx i j ∧ span = j + 2 - i) ∨
  (cls = .rtcm ∧ ∃ l, ValidFrameAt rx i l ∧ span = 6 + l)

/-- The first candidate is proven invalid, for the reason `d` (R78). -/
def ProvenInvalidAt (rx : List Byte) (i : Nat) (d : Diag) : Prop :=
  RtcmAt rx i ∧ ∃ h1 h2, HeaderAt rx i h1 h2 ∧
    ((d = .reservedBits ∧ 4 ≤ h1.toNat) ∨
     (d = .crcMismatch ∧ h1.toNat < 4 ∧ i + 6 + lengthOf h1 h2 ≤ rx.length ∧ ¬ CrcAgrees rx i (lengthOf h1 h2)))

/-- One bit step of CRC-24Q on numbers: double, and if the result reaches bit 24 take the generator off (R66). -/
def crcBitStep (c : Nat) : Nat := if c * 2 < 0x1000000 then c * 2 else (c * 2) ^^^ 0x1864CFB

/-! ### What a POLL takes in -/

/-- Step 1 of a POLL goes on to the scan, and `t` is the state the scan sees (R72): with nothing available, `s`;
else, with room and a read that succeeds, `s` with as many bytes of SRC moved to the end of RX as there is room for. -/
def Ingests (s t : State) : Prop :=
  (s.src = [] ∧ t = s) ∨
  (s.src ≠ [] ∧ s.rx.length < s.config.cap ∧ s.readError = none ∧
    t = { s with rx := s.rx ++ s.src.take (s.config.cap - s.rx.length)
                 src := s.src.drop (s.config.cap - s.rx.length) })

/-! ### Runs -/

/-- `k` steps, stopping at the first fault or refusal: what `Host.Core.run` says of this machine. -/
def runSteps : Nat → State → Result
  | 0, s => .next s
  | k + 1, s => andThen (step s) (runSteps k)

/-- The word is RESET (R48). -/
abbrev isResetWord (w : CommandWord) : Prop := w = 0x0000000000000002#64

/-- Nothing that waits at the ports is a RESET command or a power-on. -/
def NoReset (pending : List Event) : Prop :=
  ∀ e ∈ pending, e ≠ .move .powerOn ∧ ∀ w, e = .command w → ¬ isResetWord w

/-- RX is full and SRC is not empty: the state in which POLL answers BUFFER_FULL (R73). -/
abbrev State.Stuck (s : State) : Prop := s.config.cap ≤ s.rx.length ∧ s.src ≠ []

/-- The events of feeding bytes one at a time, a POLL after each (R88(a)). -/
def feedOneByOne (dcap : BitVec 16) (bytes : List Byte) : List Event :=
  bytes.flatMap fun b => [.move (.feed [b]), .command (encode (.poll dcap))]

/-- The events of feeding chunks of bytes, a POLL after each (R88(c)). -/
def feedChunks (dcap : BitVec 16) (chunks : List (List Byte)) : List Event :=
  chunks.flatMap fun c => [.move (.feed c), .command (encode (.poll dcap))]

end Sys2Proof.Machine
end

