-- ==== Sys2Proof/Certificates/Slice0/Obligations.lean ====
section
/-! DEFINITION. The statements for the provers. Each says in its docstring which rule of spec/ it formalises. -/

open Sys2Proof Sys2Proof.Machine

/-! ### Encoding -/

/-- A step that finds a command word next on the port runs the command the word decodes to, on the state without that
word (R23, R32, R45, R51); and `withFetchWord` puts a word there, so that the next step runs exactly it. -/
def Obligations.StepRunsDecodedCommand : Prop :=
  (∀ (s : State) (w : CommandWord) (rest : List Event) (i : Instr),
    s.pending = .command w :: rest → decode w = .ok i → step s = exec i { s with pending := rest }) ∧
  (∀ (s : State) (nbits w : Nat) (i : Instr),
    decodeTableWord nbits w = some i → step (s.withFetchWord nbits w) = exec i s)

/-- A step makes the move that is next and changes nothing else; where nothing is next it waits (R40, R61, R102).
The model's own choices are here: that the machine waits (log 4), that a read error is announced in a field, and that a
later announcement replaces one that no read has used up (log 5), that another DEST is a move (log 6), and that power-on
is one (log 10). -/
def Obligations.StepMakesMoveOrWaits : Prop :=
  (∀ s : State, s.pending = [] → step s = .next s) ∧
  (∀ (s : State) (rest : List Event) (bytes : List Byte), s.pending = .move (.feed bytes) :: rest →
    step s = .next { s with pending := rest, src := s.src ++ bytes }) ∧
  (∀ (s : State) (rest : List Event) (k : Nat), s.pending = .move (.readError k) :: rest →
    step s = .next { s with pending := rest, readError := some k }) ∧
  (∀ (s : State) (rest : List Event) (bytes : List Byte), s.pending = .move (.supplyDest bytes) :: rest →
    ∃ m : Memory, step s = .next { s with pending := rest, dest := m } ∧ m.wf ∧ ∀ k, m.read k = bytes[k]?) ∧
  (∀ (s : State) (rest : List Event), s.pending = .move .powerOn :: rest →
    step s = .next { s with pending := rest, rx := [], rsp := 0x00000000#32 })

/-- A word that matches no row of the opcode table writes RSP = 0x0000000F and changes nothing else (R87). -/
def Obligations.IllegalWordAnswersIllegal : Prop :=
  ∀ (s : State) (w : CommandWord) (rest : List Event), s.pending = .command w :: rest →
    w &&& 0xFFFFFFFFFF0000FF#64 ≠ 0x0000000000000001#64 →
    w &&& 0xFFFFFFFFFFFFFFFF#64 ≠ 0x0000000000000002#64 →
    w &&& 0xFFFFFFFF000000FF#64 ≠ 0x0000000000000003#64 →
    w &&& 0xFFFF0000000000FF#64 ≠ 0x0000000000000004#64 →
    w &&& 0xFFFF0000000000FF#64 ≠ 0x0000000000000005#64 →
    step s = .next { s with pending := rest, rsp := 0x0000000F#32 }

/-- Words that the spec writes out decode to the commands it gives them for (R60, 95_test_vectors.md 2.1, 2.3;
the names of the reasons are the model's: log 8). -/
def Obligations.WrittenWordsDecode : Prop :=
  decode 0x0000000000004001#64 = .ok (.poll 64) ∧
  decode 0x0000000000000002#64 = .ok .reset ∧
  decode 0x0000000000202403#64 = .ok (.classify 0x24 32) ∧
  decode 0x000002010500D304#64 = .ok (.rtcmLen 0xD3 0x00 0x05 0x01 0x02) ∧
  decode 0x0000D73E1300D305#64 = .ok (.rtcmType 0xD3 0x00 0x13 0x3E 0xD7) ∧
  decode 0x0000000000000000#64 = .error .reservedOpcode ∧
  decode 0x0000000000000012#64 = .error .reservedField ∧
  decode 0x0000000100004001#64 = .error .reservedField ∧
  decode 0xFFFFFFFFFFFFFFFF#64 = .error .reservedOpcode

/-- Every command, with every operand at every value, decodes from the word it is encoded as (R47 to R51, R60). -/
def Obligations.DecodeOfEncodeIsTheCommand : Prop := ∀ i : Instr, decode (encode i) = .ok i

/-- Every word that decodes is the word its command is encoded as: no bit of a legal word is ignored (R47 to R51). -/
def Obligations.EncodeOfDecodeIsTheWord : Prop := ∀ (w : CommandWord) (i : Instr), decode w = .ok i → encode i = w

/-- R51: the five rows by mask and match, at most one of which accepts a word; a word that none accepts is illegal,
because its opcode is reserved or a must-be-zero bit is set (the names of the two reasons are the model's: log 8), and is
executed as R87 says. -/
def Obligations.OpcodeTableDecoding : Prop :=
  (∀ w, (∃ dcap, decode w = .ok (.poll dcap)) ↔ w &&& 0xFFFFFFFFFF0000FF#64 = 0x0000000000000001#64) ∧
  (∀ w, decode w = .ok .reset ↔ w &&& 0xFFFFFFFFFFFFFFFF#64 = 0x0000000000000002#64) ∧
  (∀ w, (∃ b0 plen, decode w = .ok (.classify b0 plen)) ↔ w &&& 0xFFFFFFFF000000FF#64 = 0x0000000000000003#64) ∧
  (∀ w, (∃ h0 h1 h2 h3 h4, decode w = .ok (.rtcmLen h0 h1 h2 h3 h4)) ↔
    w &&& 0xFFFF0000000000FF#64 = 0x0000000000000004#64) ∧
  (∀ w, (∃ h0 h1 h2 h3 h4, decode w = .ok (.rtcmType h0 h1 h2 h3 h4)) ↔
    w &&& 0xFFFF0000000000FF#64 = 0x0000000000000005#64) ∧
  (∀ (w : CommandWord), ∀ r ∈ opcodeTable, ∀ r' ∈ opcodeTable,
    w &&& r.mask = r.pattern → w &&& r'.mask = r'.pattern → r = r') ∧
  (∀ w, (∃ e, decode w = .error e) ↔ ∀ r ∈ opcodeTable, w &&& r.mask ≠ r.pattern) ∧
  (∀ w, decode w = .error .reservedOpcode ↔ w.toNat % 16 = 0 ∨ 6 ≤ w.toNat % 16) ∧
  (∀ w, decode w = .error .reservedField ↔
    (1 ≤ w.toNat % 16 ∧ w.toNat % 16 ≤ 5) ∧ ∀ r ∈ opcodeTable, w &&& r.mask ≠ r.pattern) ∧
  (∀ (s : State) w rest e, s.pending = .command w :: rest → decode w = .error e →
    step s = .next { s with pending := rest, rsp := 0x0000000F#32 })

/-- The formats P, N, C and H, field by field, as numbers (R47, R48, R49, R50): a word is a command's exactly when its
fields are that command's operands and every other bit of it is as the format says. -/
def Obligations.FormatFieldsDecode : Prop :=
  (∀ w dcap, decode w = .ok (.poll dcap) ↔
    w.toNat % 16 = 1 ∧ w.toNat / 2 ^ 4 % 16 = 0 ∧ w.toNat / 2 ^ 8 % 65536 = dcap.toNat ∧ w.toNat / 2 ^ 24 = 0) ∧
  (∀ w, decode w = .ok .reset ↔ w.toNat % 16 = 2 ∧ w.toNat / 2 ^ 4 = 0) ∧
  (∀ w b0 plen, decode w = .ok (.classify b0 plen) ↔
    w.toNat % 16 = 3 ∧ w.toNat / 2 ^ 4 % 16 = 0 ∧ w.toNat / 2 ^ 8 % 256 = b0.toNat ∧
    w.toNat / 2 ^ 16 % 65536 = plen.toNat ∧ w.toNat / 2 ^ 32 = 0) ∧
  (∀ w h0 h1 h2 h3 h4, decode w = .ok (.rtcmLen h0 h1 h2 h3 h4) ↔
    w.toNat % 16 = 4 ∧ w.toNat / 2 ^ 4 % 16 = 0 ∧ w.toNat / 2 ^ 8 % 256 = h0.toNat ∧ w.toNat / 2 ^ 16 % 256 = h1.toNat ∧
    w.toNat / 2 ^ 24 % 256 = h2.toNat ∧ w.toNat / 2 ^ 32 % 256 = h3.toNat ∧ w.toNat / 2 ^ 40 % 256 = h4.toNat ∧
    w.toNat / 2 ^ 48 = 0) ∧
  (∀ w h0 h1 h2 h3 h4, decode w = .ok (.rtcmType h0 h1 h2 h3 h4) ↔
    w.toNat % 16 = 5 ∧ w.toNat / 2 ^ 4 % 16 = 0 ∧ w.toNat / 2 ^ 8 % 256 = h0.toNat ∧ w.toNat / 2 ^ 16 % 256 = h1.toNat ∧
    w.toNat / 2 ^ 24 % 256 = h2.toNat ∧ w.toNat / 2 ^ 32 % 256 = h3.toNat ∧ w.toNat / 2 ^ 40 % 256 = h4.toNat ∧
    w.toNat / 2 ^ 48 = 0)

/-- The assembler (R60): the word of each line, an operand out of range being an error; and a line that writes a command
assembles to a word of that command. -/
def Obligations.AssemblerWritesTheFormats : Prop :=
  (∀ dcap, assemble (.poll dcap) = if dcap < 65536 then some (BitVec.ofNat 64 (dcap * 256 + 1)) else none) ∧
  (assemble .reset = some 0x0000000000000002#64) ∧
  (∀ b0 plen, assemble (.classify b0 plen) =
    if b0 < 256 ∧ plen < 65536 then some (BitVec.ofNat 64 (plen * 65536 + b0 * 256 + 3)) else none) ∧
  (∀ h0 h1 h2 h3 h4, assemble (.rtcmLen h0 h1 h2 h3 h4) =
    if h0 < 256 ∧ h1 < 256 ∧ h2 < 256 ∧ h3 < 256 ∧ h4 < 256 then
      some (BitVec.ofNat 64 (h4 * 2 ^ 40 + h3 * 2 ^ 32 + h2 * 2 ^ 24 + h1 * 2 ^ 16 + h0 * 256 + 4))
    else none) ∧
  (∀ h0 h1 h2 h3 h4, assemble (.rtcmType h0 h1 h2 h3 h4) =
    if h0 < 256 ∧ h1 < 256 ∧ h2 < 256 ∧ h3 < 256 ∧ h4 < 256 then
      some (BitVec.ofNat 64 (h4 * 2 ^ 40 + h3 * 2 ^ 32 + h2 * 2 ^ 24 + h1 * 2 ^ 16 + h0 * 256 + 5))
    else none) ∧
  (∀ w, assemble (.word64 w) = if w < 2 ^ 64 then some (BitVec.ofNat 64 w) else none) ∧
  (∀ l w i, commandOf l = some i → assemble l = some w → decode w = .ok i)

/-! ### The commands other than POLL -/

/-- R68: RTCM_LEN answers the 10-bit length in header bytes 1 and 2 and writes RSP only; its encoding; its example. -/
def Obligations.RtcmLenAnswersPayloadLength : Prop :=
  (∀ h0 h1 h2 h3 h4 s, exec (.rtcmLen h0 h1 h2 h3 h4) s =
    .next { s with rsp := BitVec.ofNat 32 ((h1.toNat % 4 * 256 + h2.toNat) * 256) }) ∧
  (∀ w, (∃ h0 h1 h2 h3 h4, decode w = .ok (.rtcmLen h0 h1 h2 h3 h4)) ↔
    w &&& 0xFFFF0000000000FF#64 = 0x0000000000000004#64) ∧
  (∀ w h0 h1 h2 h3 h4, decode w = .ok (.rtcmLen h0 h1 h2 h3 h4) →
    h0 = w.extractLsb' 8 8 ∧ h1 = w.extractLsb' 16 8 ∧ h2 = w.extractLsb' 24 8 ∧ h3 = w.extractLsb' 32 8 ∧
    h4 = w.extractLsb' 40 8) ∧
  (∀ s, step (State.withFetchWord s 64 0x000002010500D304) = .next { s with rsp := 0x00000500#32 })

/-- R69: RTCM_TYPE answers the 12-bit type in header bytes 3 and 4 and writes RSP only; its encoding; its example. -/
def Obligations.RtcmTypeAnswersMessageType : Prop :=
  (∀ h0 h1 h2 h3 h4 s, exec (.rtcmType h0 h1 h2 h3 h4) s =
    .next { s with rsp := BitVec.ofNat 32 ((h3.toNat * 16 + h4.toNat / 16) * 256) }) ∧
  (∀ w, (∃ h0 h1 h2 h3 h4, decode w = .ok (.rtcmType h0 h1 h2 h3 h4)) ↔
    w &&& 0xFFFF0000000000FF#64 = 0x0000000000000005#64) ∧
  (∀ w h0 h1 h2 h3 h4, decode w = .ok (.rtcmType h0 h1 h2 h3 h4) →
    h0 = w.extractLsb' 8 8 ∧ h1 = w.extractLsb' 16 8 ∧ h2 = w.extractLsb' 24 8 ∧ h3 = w.extractLsb' 32 8 ∧
    h4 = w.extractLsb' 40 8) ∧
  (∀ s, step (State.withFetchWord s 64 0x0000D73E1300D305) = .next { s with rsp := 0x0003ED00#32 })

/-- R86: CLASSIFY answers the class of the first byte, UNKNOWN for an empty packet, and writes RSP only; its encoding; a
packet that POLL extracts classifies as the CLASS that POLL reported; its example. -/
def Obligations.ClassifyAnswersClassOfFirstByte : Prop :=
  (∀ b0 plen s, exec (.classify b0 plen) s =
    .next { s with rsp := if plen.toNat = 0 then 0x00000030#32 else if b0.toNat = 0x24 then 0x00000010#32
                          else if b0.toNat = 0xD3 then 0x00000020#32 else 0x00000030#32 }) ∧
  (∀ w, (∃ b0 plen, decode w = .ok (.classify b0 plen)) ↔ w &&& 0xFFFFFFFF000000FF#64 = 0x0000000000000003#64) ∧
  (∀ w b0 plen, decode w = .ok (.classify b0 plen) → b0 = w.extractLsb' 8 8 ∧ plen = w.extractLsb' 16 16) ∧
  (∀ (s : State) dcap t, s.dest.wf → exec (.poll dcap) s = .next t → rspStatus t.rsp = 0x1#4 →
    ∃ b0 u, t.dest.read 0 = some b0 ∧ exec (.classify b0 (rspData t.rsp)) t = .next u ∧
      rspClass u.rsp = rspClass t.rsp) ∧
  (∀ s, step (State.withFetchWord s 64 0x00000000000BD303) = .next { s with rsp := 0x00000020#32 })

/-- R85: RESET empties the receive buffer and answers 0, leaving SRC and DEST; its one word; it is idempotent; the next
POLL sees only bytes it reads from SRC, as in the rule's example. -/
def Obligations.ResetDiscardsBufferedBytes : Prop :=
  (∀ s : State, exec .reset s = .next { s with rx := [], rsp := 0x00000000#32 }) ∧
  (∀ w, decode w = .ok .reset ↔ w = 0x0000000000000002#64) ∧
  (∀ (s t : State), exec .reset s = .next t → exec .reset t = .next t) ∧
  (∀ (s t : State), s.config.cap = 8 → s.rx.length = 8 → s.src = [0x69#8, 0x6A#8] → s.readError = none →
    exec .reset s = .next t → t.rsp = 0x00000000#32 ∧ t.used = 0 ∧
      exec (.poll 64) t = .next { t with rx := [0x69#8, 0x6A#8], src := [], rsp := 0x00000002#32 })

/-- What power-on and RESET leave (R22, R102), with the default parameters (R6, R7).
The model's own choices are here: that the parameters stand in the state and have the defaults after power-on (log 1),
and that power-on is an operation on every state, which touches nothing of the environment (log 10). -/
def Obligations.PowerOnAndResetLeaveEmptyBuffer : Prop :=
  (State.reset.used = 0 ∧ State.reset.rx = [] ∧ State.reset.rsp = 0x00000000#32 ∧
    State.reset.config = ⟨1024, .discard⟩) ∧
  (∀ s : State, s.powerOn = { s with rx := [], rsp := 0x00000000#32 }) ∧
  (∀ s : State, exec .reset s = .next s.powerOn)

/-- Every command but POLL answers from its operands alone, and repeating it changes nothing more (R29, R33). -/
def Obligations.OtherCommandsIgnoreTheBuffer : Prop :=
  ∀ i : Instr, (∀ dcap, i ≠ .poll dcap) → ∀ s s' : State, ∃ t t',
    exec i s = .next t ∧ exec i s' = .next t' ∧ t.rsp = t'.rsp ∧ exec i t = .next t

/-! ### POLL, rule by rule -/

/-- R73: with bytes waiting and no room, POLL answers BUFFER_FULL and changes nothing else, whatever the source would
answer; with no bytes waiting it is never BUFFER_FULL: POLL scans the buffer. -/
def Obligations.PollBufferFull : Prop :=
  (∀ (s : State) dcap, s.src ≠ [] → s.config.cap ≤ s.rx.length → exec (.poll dcap) s = .next { s with rsp := 0x00000003#32 }) ∧
  (∀ (s : State) dcap, s.src = [] → exec (.poll dcap) s = pollScan dcap s ∧
    ∃ t, exec (.poll dcap) s = .next t ∧ rspStatus t.rsp ≠ 0x3#4)

/-- A read that fails appends nothing and answers READ_FAILURE; SRC loses between 0 and n bytes from its front, and every
such number is some answer of the environment (R74, R27).
That the error is announced beforehand and that the read it answers uses it up is the model's own reading of READERR
(R61; log 5). -/
def Obligations.PollReadFailure : Prop :=
  (∀ (s : State) dcap k, s.src ≠ [] → s.rx.length < s.config.cap → s.readError = some k →
    ∃ m, m ≤ min s.src.length (s.config.cap - s.rx.length) ∧
      exec (.poll dcap) s = .next { s with src := s.src.drop m, readError := none, rsp := 0x00000005#32 }) ∧
  (∀ (s : State) dcap m, s.src ≠ [] → s.rx.length < s.config.cap → m ≤ min s.src.length (s.config.cap - s.rx.length) →
    ∃ k, exec (.poll dcap) { s with readError := some k } =
      .next { s with src := s.src.drop m, readError := none, rsp := 0x00000005#32 })

/-- R72: a POLL with nothing available reads nothing and scans; with room and a read that succeeds it appends the first
n = min(avail, CAP − USED) bytes of SRC, leaves the rest there, and scans. -/
def Obligations.PollIngestsWhatThereIsRoomFor : Prop :=
  (∀ (s : State) dcap, s.src = [] → exec (.poll dcap) s = pollScan dcap s) ∧
  (∀ (s : State) dcap n, s.src ≠ [] → s.rx.length < s.config.cap → s.readError = none →
    n = min s.src.length (s.config.cap - s.rx.length) →
    exec (.poll dcap) s = pollScan dcap { s with rx := s.rx ++ s.src.take n, src := s.src.drop n })

/-- R75: the first start marker alone is the candidate. -/
def Obligations.FirstMarkerIsTheCandidate : Prop :=
  (∀ (s t : State) dcap i, Ingests s t → NmeaAt t.rx i → exec (.poll dcap) s = nmeaCandidate i dcap t) ∧
  (∀ (s t : State) dcap i, Ingests s t → RtcmAt t.rx i → exec (.poll dcap) s = rtcmCandidate i dcap t)

/-- R82: with no start marker in the buffer POLL answers NO_PACKET and discards nothing. -/
def Obligations.PollWithoutMarkerKeepsBytes : Prop :=
  ∀ (s t : State) dcap, Ingests s t → MarkerFree t.rx → exec (.poll dcap) s = .next { t with rsp := 0x00000002#32 }

/-- R76: a `$` with no CR LF after it waits; with one, the packet runs from the `$` through the LF of the first, and is at
least 3 bytes. -/
def Obligations.PollNmeaCandidate : Prop :=
  (∀ (s t : State) dcap i, Ingests s t → NmeaAt t.rx i → NoCrLfAfter t.rx i →
    exec (.poll dcap) s = .next { t with rsp := 0x00000002#32 }) ∧
  (∀ (s t : State) dcap i j, Ingests s t → NmeaAt t.rx i → FirstCrLfAfter t.rx i j →
    3 ≤ j + 2 - i ∧ exec (.poll dcap) s = extract i (j + 2 - i) .nmea dcap t)

/-- R77: a 0xD3 waits while fewer than 6 bytes are buffered from it, whatever they are; and, when its reserved bits are
zero, while fewer than 6 + L are. -/
def Obligations.PollRtcmCandidateWaits : Prop :=
  (∀ (s t : State) dcap i, Ingests s t → RtcmAt t.rx i → t.rx.length - i < 6 →
    exec (.poll dcap) s = .next { t with rsp := 0x00000002#32 }) ∧
  (∀ (s t : State) dcap i h1 h2, Ingests s t → RtcmAt t.rx i → HeaderAt t.rx i h1 h2 → h1.toNat < 4 →
    t.rx.length - i < 6 + lengthOf h1 h2 → exec (.poll dcap) s = .next { t with rsp := 0x00000002#32 })

/-- R78: the checks in their order: reserved bits once 6 bytes are buffered, the CRC once 6 + L are, else the frame is
extracted. -/
def Obligations.PollRtcmCandidateChecks : Prop :=
  (∀ (s t : State) dcap i h1 h2, Ingests s t → RtcmAt t.rx i → HeaderAt t.rx i h1 h2 → 4 ≤ h1.toNat →
    exec (.poll dcap) s = reject i .reservedBits t) ∧
  (∀ (s t : State) dcap i h1 h2, Ingests s t → RtcmAt t.rx i → HeaderAt t.rx i h1 h2 → h1.toNat < 4 →
    i + 6 + lengthOf h1 h2 ≤ t.rx.length → ¬ CrcAgrees t.rx i (lengthOf h1 h2) →
    exec (.poll dcap) s = reject i .crcMismatch t) ∧
  (∀ (s t : State) dcap i h1 h2, Ingests s t → RtcmAt t.rx i → HeaderAt t.rx i h1 h2 → h1.toNat < 4 →
    i + 6 + lengthOf h1 h2 ≤ t.rx.length → CrcAgrees t.rx i (lengthOf h1 h2) →
    exec (.poll dcap) s = extract i (6 + lengthOf h1 h2) .rtcm dcap t)

/-- R79: a proven-invalid candidate, under DISCARD, takes all bytes up to its preamble out of the buffer; under RETAIN it
leaves them; the answer is NO_PACKET with the reason, and no packet is emitted. -/
def Obligations.PollRejectsByPolicy : Prop :=
  (∀ (s t : State) dcap i d, Ingests s t → ProvenInvalidAt t.rx i d → t.config.badFramePolicy = .discard →
    exec (.poll dcap) s =
      .next { t with rx := t.rx.drop (i + 1), rsp := BitVec.ofNat 32 (d.code.toNat * 64 + 2) }) ∧
  (∀ (s t : State) dcap i d, Ingests s t → ProvenInvalidAt t.rx i d → t.config.badFramePolicy = .retain →
    exec (.poll dcap) s = .next { t with rsp := BitVec.ofNat 32 (d.code.toNat * 64 + 2) })

/-- R80: a complete packet for which DCAP < span + 1 is withheld: the answer is BUFFER_TOO_SMALL with its class and span,
every byte stays in the buffer, and DEST is not written. -/
def Obligations.PollBufferTooSmall : Prop :=
  ∀ (s t : State) dcap i span cls, s.Inv → Ingests s t → PacketAt t.rx i span cls → dcap.toNat < span + 1 →
    exec (.poll dcap) s = .next { t with rsp := BitVec.ofNat 32 (span * 256 + cls.code.toNat * 16 + 4) }

/-- R81: a complete packet for which DCAP ≥ span + 1 is copied to DEST with a NUL after it, the buffer is compacted past
it, and the answer is PACKET with its class and span. -/
def Obligations.PollExtractsPacket : Prop :=
  ∀ (s t : State) dcap i span cls, s.Inv → Ingests s t → PacketAt t.rx i span cls → span + 1 ≤ dcap.toNat →
    ∃ m : Memory,
      exec (.poll dcap) s = .next { t with rx := t.rx.drop (i + span), dest := m,
                                           rsp := BitVec.ofNat 32 (span * 256 + cls.code.toNat * 16 + 1) } ∧
      ∀ k, m.read k = if k < span then t.rx[i + k]? else if k = span then some 0x00#8 else s.dest.read k

/-! ### POLL as a whole -/

/-- The frame of POLL (R71, R84): it changes neither the parameters nor the command stream; it takes at most a prefix of
SRC; RX is what was there and what came in, less a prefix; on BUFFER_FULL and READ_FAILURE RX is unchanged; an announced
read error (the model's field: log 5) stays unless this POLL reported it. -/
def Obligations.PollFrame : Prop :=
  ∀ (s : State) dcap t, exec (.poll dcap) s = .next t →
    t.config = s.config ∧ t.pending = s.pending ∧
    (∃ n, n ≤ min s.src.length (s.config.cap - s.rx.length) ∧ t.src = s.src.drop n ∧
      (rspStatus t.rsp ≠ 0x5#4 → ∃ m, t.rx = (s.rx ++ s.src.take n).drop m)) ∧
    (rspStatus t.rsp = 0x3#4 ∨ rspStatus t.rsp = 0x5#4 → t.rx = s.rx) ∧
    (rspStatus t.rsp = 0x3#4 → t.src = s.src) ∧
    (rspStatus t.rsp ≠ 0x5#4 → t.readError = s.readError) ∧
    (rspStatus t.rsp = 0x5#4 → t.readError = none)

/-- R28: DEST is written only by a POLL that answers PACKET, and then exactly at the offsets 0 to span: the packet's bytes
and one NUL, none of them at or beyond DCAP. -/
def Obligations.DestWrittenOnlyByPacket : Prop :=
  ∀ i (s t : State), s.Inv → exec i s = .next t →
    (rspStatus t.rsp ≠ 0x1#4 → t.dest = s.dest) ∧
    (rspStatus t.rsp = 0x1#4 → ∃ dcap u i₀ cls, i = .poll dcap ∧ Ingests s u ∧
      PacketAt u.rx i₀ (rspData t.rsp).toNat cls ∧ (rspData t.rsp).toNat + 1 ≤ dcap.toNat ∧
      (∀ k < (rspData t.rsp).toNat, t.dest.read k = u.rx[i₀ + k]?) ∧
      t.dest.read (rspData t.rsp).toNat = some 0x00#8 ∧
      ∀ k, (rspData t.rsp).toNat < k → t.dest.read k = s.dest.read k)

/-- R55: which fields of RSP each command writes, by STATUS, and the layout of the word. -/
def Obligations.ResponseFieldsByCommand : Prop :=
  (∀ (s : State) dcap t, s.Inv → exec (.poll dcap) s = .next t →
    ((rspStatus t.rsp = 0x1#4 ∨ rspStatus t.rsp = 0x4#4) ∧ rspDiag t.rsp = 0 ∧
      ∃ u i cls, Ingests s u ∧ PacketAt u.rx i (rspData t.rsp).toNat cls ∧ rspClass t.rsp = cls.code ∧
        (rspClass t.rsp = 1 ∨ rspClass t.rsp = 2)) ∨
    (rspStatus t.rsp = 0x2#4 ∧ rspClass t.rsp = 0 ∧ rspDiag t.rsp ≠ 3 ∧ rspData t.rsp = 0) ∨
    ((rspStatus t.rsp = 0x3#4 ∨ rspStatus t.rsp = 0x5#4) ∧ rspClass t.rsp = 0 ∧ rspDiag t.rsp = 0 ∧
      rspData t.rsp = 0)) ∧
  (∀ (s t : State), exec .reset s = .next t → t.rsp = 0x00000000#32) ∧
  (∀ b0 plen s t, exec (.classify b0 plen) s = .next t →
    rspStatus t.rsp = 0x0#4 ∧ rspClass t.rsp ≠ 0 ∧ rspDiag t.rsp = 0 ∧ rspData t.rsp = 0) ∧
  (∀ h0 h1 h2 h3 h4 s t, exec (.rtcmLen h0 h1 h2 h3 h4) s = .next t →
    rspStatus t.rsp = 0x0#4 ∧ rspClass t.rsp = 0 ∧ rspDiag t.rsp = 0 ∧ (rspData t.rsp).toNat = lengthOf h1 h2) ∧
  (∀ h0 h1 h2 h3 h4 s t, exec (.rtcmType h0 h1 h2 h3 h4) s = .next t →
    rspStatus t.rsp = 0x0#4 ∧ rspClass t.rsp = 0 ∧ rspDiag t.rsp = 0 ∧
      (rspData t.rsp).toNat = h3.toNat * 16 + h4.toNat / 16) ∧
  (∀ (s t : State), execIllegal s = .next t →
    rspStatus t.rsp = 0xF#4 ∧ rspClass t.rsp = 0 ∧ rspDiag t.rsp = 0 ∧ rspData t.rsp = 0) ∧
  (∀ r : Response, r.word.toNat =
    r.data.toNat * 256 + r.diag.code.toNat * 64 + r.cls.code.toNat * 16 + r.status.code.toNat) ∧
  Response.word ⟨.packet, .nmea, .none, 86⟩ = 0x00005611#32

/-- DFR never produces a reserved output, from any state: RSP[31:24] is 0, STATUS is 0 to 5 or 0xF, DIAG is not 3
(R18, R52, R54, R62). -/
def Obligations.NoReservedOutput : Prop :=
  ∀ s t w rest, s.pending = .command w :: rest → step s = .next t →
    t.rsp.toNat < 2 ^ 24 ∧ ((rspStatus t.rsp).toNat ≤ 5 ∨ rspStatus t.rsp = 0xF#4) ∧ rspDiag t.rsp ≠ 3

/-- What no POLL loses (R88(d), with R72): RX either keeps every byte it had and took in, or loses the bytes before the
first marker, none of them a marker, and a packet that is now in DEST, or under DISCARD those bytes and a 0xD3; RESET is
the only other command that changes RX. -/
def Obligations.NoByteIsLost : Prop :=
  ∀ i (s t : State), s.dest.wf → exec i s = .next t →
    t.rx = s.rx ∨ (i = .reset ∧ t.rx = []) ∨
    ∃ dcap u, i = .poll dcap ∧ Ingests s u ∧ t.src = u.src ∧ s.rx ++ s.src = u.rx ++ u.src ∧
      (t.rx = u.rx ∨
       (∃ i₀ span cls, rspStatus t.rsp = 0x1#4 ∧ PacketAt u.rx i₀ span cls ∧ MarkerFree (u.rx.take i₀) ∧
         u.rx = u.rx.take i₀ ++ (u.rx.drop i₀).take span ++ t.rx ∧ ∀ k < span, t.dest.read k = u.rx[i₀ + k]?) ∨
       (∃ i₀, rspStatus t.rsp = 0x2#4 ∧ rspDiag t.rsp ≠ 0 ∧ s.config.badFramePolicy = .discard ∧
         MarkerFree (u.rx.take i₀) ∧ u.rx = u.rx.take i₀ ++ [0xD3#8] ++ t.rx))

/-- R16: the buffer is in exactly one of the three implicit states, whatever it holds. -/
def Obligations.ExactlyOneBufferState : Prop :=
  ∀ s : State, (s.isEmpty ∧ ¬ s.isAccumulating ∧ ¬ s.isPacketReady) ∨
    (¬ s.isEmpty ∧ s.isAccumulating ∧ ¬ s.isPacketReady) ∨ (¬ s.isEmpty ∧ ¬ s.isAccumulating ∧ s.isPacketReady)

/-- BUFFER_TOO_SMALL is safe to retry (R88(b), R109): the packet withheld stands in RX, and while SRC is empty, or there is
room and the read succeeds, a further POLL answers for that packet, BUFFER_TOO_SMALL again while DCAP is too small, and
PACKET, with the same bytes in DEST, once it is not. -/
def Obligations.BufferTooSmallIsRetrySafe : Prop :=
  ∀ (s : State) dcap t, s.Inv → exec (.poll dcap) s = .next t → rspStatus t.rsp = 0x4#4 →
    ∃ i cls, PacketAt t.rx i (rspData t.rsp).toNat cls ∧ rspClass t.rsp = cls.code ∧
      ∀ dcap' : BitVec 16, (t.src = [] ∨ (t.rx.length < t.config.cap ∧ t.readError = none)) →
        ∃ u, exec (.poll dcap') t = .next u ∧ rspData u.rsp = rspData t.rsp ∧ rspClass u.rsp = rspClass t.rsp ∧
          (dcap'.toNat < (rspData t.rsp).toNat + 1 → rspStatus u.rsp = 0x4#4) ∧
          ((rspData t.rsp).toNat + 1 ≤ dcap'.toNat → rspStatus u.rsp = 0x1#4 ∧
            ∀ k < (rspData t.rsp).toNat, u.dest.read k = t.rx[i + k]?)

/-- R108: an RTCM candidate whose frame is longer than the buffer has room for never completes: every POLL answers
NO_PACKET, BUFFER_FULL or READ_FAILURE, rejects nothing and leaves every byte in RX. -/
def Obligations.OverlongFrameNeverCompletes : Prop :=
  ∀ (s t : State) dcap i h1 h2, s.Inv → RtcmAt s.rx i → HeaderAt s.rx i h1 h2 → h1.toNat < 4 →
    s.config.cap - i < 6 + lengthOf h1 h2 → exec (.poll dcap) s = .next t →
    (rspStatus t.rsp = 0x2#4 ∨ rspStatus t.rsp = 0x3#4 ∨ rspStatus t.rsp = 0x5#4) ∧ rspDiag t.rsp = 0 ∧ s.rx <+: t.rx

/-- Nothing reads DEST (R25, R28): two machines that differ only in DEST step to machines that differ only in DEST. -/
def Obligations.NothingReadsDest : Prop :=
  ∀ (s t : State) (m : Memory), step s = .next t → ∃ m', step { s with dest := m } = .next { t with dest := m' }

/-! ### CRC-24Q -/

/-- R66: CRC-24Q byte by byte on numbers, from the seed 0, each byte entering at bits [23:16]; the check
value, and the trailer of the RTCM 1005 sample frame. -/
def Obligations.Crc24ByteByByte : Prop :=
  crc24 [] = 0x000000#24 ∧
  (∀ s b, (crc24 (s ++ [b])).toNat = Nat.iterate crcBitStep 8 ((crc24 s).toNat ^^^ (b.toNat * 65536))) ∧
  crc24 [0x31, 0x32, 0x33, 0x34, 0x35, 0x36, 0x37, 0x38, 0x39] = 0xCDE703#24 ∧
  crc24 [0xD3, 0x00, 0x13, 0x3E, 0xD7, 0xD3, 0x02, 0x02, 0x98, 0x0E, 0xDE, 0xEF, 0x34, 0xB4, 0xBD, 0x62, 0xAC, 0x09, 0x41,
    0x98, 0x6F, 0x33] = 0x360B98#24

/-- R70(a), residue: a sequence followed by its own CRC, most significant byte first, has CRC 0. -/
def Obligations.Crc24Residue : Prop :=
  ∀ s : List Byte, crc24 (s ++ [(crc24 s).extractLsb' 16 8, (crc24 s).extractLsb' 8 8, (crc24 s).extractLsb' 0 8]) = 0#24

/-- R70(b), linearity: the CRC of the exclusive or of two sequences of equal length. -/
def Obligations.Crc24IsLinear : Prop :=
  ∀ s t : List Byte, s.length = t.length → crc24 (List.zipWith (· ^^^ ·) s t) = crc24 s ^^^ crc24 t

/-- R70(c), single-bit detection: flip any one bit of a body and its trailer that agree, and they no longer agree. -/
def Obligations.Crc24DetectsSingleBitFlip : Prop :=
  ∀ (body : List Byte) (c2 c1 c0 : Byte) (k j : Nat) (b : Byte), (crc24 body).toNat = bigEndian24 c2 c1 c0 →
    j < 8 → (body ++ [c2, c1, c0])[k]? = some b →
    ∀ (body' : List Byte) (d2 d1 d0 : Byte), body'.length = body.length →
      body' ++ [d2, d1, d0] = (body ++ [c2, c1, c0]).set k (b ^^^ BitVec.ofNat 8 (2 ^ j)) →
      (crc24 body').toNat ≠ bigEndian24 d2 d1 d0

/-! ### The whole machine -/

/-- R42, R43, R44: the buffer manager, and its assertions. -/
def Obligations.BufferManagerPrimitives : Prop :=
  (∀ (s : State) bs, s.used + bs.length ≤ s.config.cap → s.append bs = .next { s with rx := s.rx ++ bs }) ∧
  (∀ (s : State) bs, s.config.cap < s.used + bs.length → s.append bs = .fault .appendBeyondCapacity) ∧
  (∀ (s : State) k, k ≤ s.used → s.compact k = .next { s with rx := s.rx.drop k }) ∧
  (∀ (s : State) k, s.used < k → s.compact k = .fault .compactBeyondUsed) ∧
  (∀ s : State, s.clear = { s with rx := [] } ∧ s.clear.used = 0)

/-- USED as the register of UW bits holds the fill level (R8, R15). -/
def Obligations.UsedRegisterHoldsFillLevel : Prop :=
  (∀ s : State, s.Inv → s.usedRegister.toNat = s.rx.length ∧ s.usedRegister.toNat ≤ s.config.cap) ∧
  (∀ c : Config, c.Legal → c.cap < 2 ^ c.usedWidth ∧ ∀ n, c.cap < 2 ^ n → c.usedWidth ≤ n) ∧
  Config.usedWidth ⟨1024, .discard⟩ = 11

/-- The machine right after power-on meets the invariant (R22, R102; that nothing is known of DEST is the
model's choice: log 4). -/
def Obligations.ResetMeetsInvariant : Prop := State.reset.Inv

/-- Every step keeps the invariant: CAP legal, USED ≤ CAP (R15), no reserved output in RSP (R62), DEST canonical. -/
def Obligations.StepKeepsInvariant : Prop := ∀ s t : State, s.Inv → step s = .next t → t.Inv

/-- Every command, in every state, ends in a next state, with the parameters and the command stream as they were; and so
does every step: no fault is reachable and nothing is refused (R83, R89, R21). -/
def Obligations.EveryCommandEnds : Prop :=
  (∀ i s, ∃ t, exec i s = .next t ∧ t.config = s.config ∧ t.pending = s.pending) ∧
  (∀ s, ∃ t, step s = .next t ∧ t.config = s.config ∧ t.pending = s.pending.tail)

/-- Whatever the host and the environment do after power-on, for every legal capacity and both policies, the machine runs
on and keeps the invariant (R40, R83, R89).
That SRC and DEST are empty and no read error is announced at the start of the run is the model's own choice (log 4). -/
def Obligations.EveryRunKeepsInvariant : Prop :=
  ∀ (c : Config) (events : List Event) (k : Nat), c.Legal →
    ∃ t : State, runSteps k { State.reset with config := c, pending := events } = .next t ∧ t.Inv ∧
      t.config = c

/-- R95 and R107: once RX is full and SRC is not empty, then whatever the host and the environment do, short of RESET and
power-on, RX is full and SRC is not empty, and the buffer holds the same bytes: the condition lasts for ever. -/
def Obligations.BufferFullLastsUntilReset : Prop :=
  ∀ (k : Nat) (s t : State), s.Stuck → NoReset s.pending → runSteps k s = .next t →
    t.Stuck ∧ t.rx = s.rx

/-- R106: under RETAIN a proven-invalid first candidate is never removed, short of RESET and power-on: after any run it is
still there, all bytes are kept, and no POLL extracts a packet. -/
def Obligations.RetainBlocksUntilReset : Prop :=
  ∀ (k : Nat) (s t : State) (i : Nat) (d : Diag), s.config.badFramePolicy = .retain → ProvenInvalidAt s.rx i d →
    NoReset s.pending → runSteps k s = .next t →
    ProvenInvalidAt t.rx i d ∧ s.rx <+: t.rx ∧
    ∀ dcap u, exec (.poll dcap) t = .next u →
      (rspStatus u.rsp = 0x2#4 ∧ rspDiag u.rsp = d.code) ∨ rspStatus u.rsp = 0x3#4 ∨ rspStatus u.rsp = 0x5#4

/-- R88(a): an NMEA line fed one byte per POLL gives NO_PACKET up to its last byte and then the whole line, and leaves the
machine as feeding it whole to one POLL does. -/
def Obligations.ByteAtATimeEqualsWhole : Prop :=
  ∀ (s : State) (sentence : List Byte) (dcap : BitVec 16) (rest : List Event), s.Inv → s.rx = [] → s.src = [] →
    s.readError = none → sentence.length ≤ s.config.cap → sentence[0]? = some 0x24#8 →
    FirstCrLfAfter sentence 0 (sentence.length - 2) → sentence.length + 1 ≤ dcap.toNat →
    (∀ k, 0 < k → k < sentence.length → ∃ t : State,
      runSteps (2 * k) { s with pending := feedOneByOne dcap sentence ++ rest } = .next t ∧
      t.rsp = 0x00000002#32) ∧
    ∃ t : State,
      runSteps (2 * sentence.length) { s with pending := feedOneByOne dcap sentence ++ rest } = .next t ∧
      runSteps 2 { s with pending := feedChunks dcap [sentence] ++ rest } = .next t ∧
      t.rsp = BitVec.ofNat 32 (sentence.length * 256 + 0x11) ∧ t.rx = [] ∧ t.src = [] ∧ t.pending = rest ∧
      ∀ k, t.dest.read k =
        if k < sentence.length then sentence[k]? else if k = sentence.length then some 0x00#8 else s.dest.read k

/-- R88(c): a source that keeps producing bytes that hold no marker exhausts the buffer: with some bytes before each POLL,
the POLL after CAP others answers BUFFER_FULL. -/
def Obligations.MarkerFreeSourceExhaustsBuffer : Prop :=
  ∀ (s : State) (dcap : BitVec 16) (chunks : List (List Byte)) (rest : List Event), s.Inv → s.readError = none →
    MarkerFree s.rx → MarkerFree s.src → (∀ c ∈ chunks, c ≠ [] ∧ MarkerFree c) → chunks.length = s.config.cap + 1 →
    ∃ t : State,
      runSteps (2 * (s.config.cap + 1)) { s with pending := feedChunks dcap chunks ++ rest } = .next t ∧
      t.rsp = 0x00000003#32 ∧ t.rx.length = s.config.cap

/-- R88(c), its other example: a first `$` that no CR LF ever follows exhausts the buffer in the same way, all bytes of RX,
of SRC and to come taken together as one stream. -/
def Obligations.UnterminatedLineExhaustsBuffer : Prop :=
  ∀ (s : State) (dcap : BitVec 16) (chunks : List (List Byte)) (rest : List Event) (i : Nat), s.Inv →
    s.readError = none → NmeaAt (s.rx ++ s.src ++ chunks.flatten) i → NoCrLfAfter (s.rx ++ s.src ++ chunks.flatten) i →
    (∀ c ∈ chunks, c ≠ []) → chunks.length = s.config.cap + 1 →
    ∃ t : State,
      runSteps (2 * (s.config.cap + 1)) { s with pending := feedChunks dcap chunks ++ rest } = .next t ∧
      t.rsp = 0x00000003#32 ∧ t.rx.length = s.config.cap

/-- R99: several instances are the product of single ones: a step of one is that instance's own step and leaves every other
as it is, and steps of two in either order leave the same bank.
That a place without an instance does nothing is the model's own choice (log 11). -/
def Obligations.InstancesAreIndependent : Prop :=
  ∀ (k j : Nat) (bank : Bank), k ≠ j →
    ∃ bank₁ bank₂ bank' : Bank, bankStep k bank = .next bank₁ ∧ bankStep j bank₁ = .next bank' ∧
      bankStep j bank = .next bank₂ ∧ bankStep k bank₂ = .next bank' ∧
      (∀ s t, bank[k]? = some s → step s = .next t → bank₁[k]? = some t) ∧
      ∀ n, n ≠ k → bank₁[n]? = bank[n]?
end

