-- ==== Sys2Proof/Laws/Bits.lean ====
section
/-! SUPPORT. What a field in its place is, bit by bit and as a number. -/

namespace Sys2Proof

/-- Bit `i` of a field placed at `pos`. -/
theorem getLsbD_placeAt (w pos n i : Nat) (v : BitVec n) :
    (placeAt w pos v).getLsbD i = (decide (i < w) && (decide (pos ≤ i) && v.getLsbD (i - pos))) := by
  by_cases h : i < pos
  · simp [placeAt, h, Nat.not_le.2 h]
  · simp only [placeAt, BitVec.getLsbD_shiftLeft, BitVec.getLsbD_setWidth, h, Nat.not_lt.1 h, decide_true, decide_false,
      Bool.not_false, Bool.true_and]
    by_cases hw : i < w
    · simp [hw, show i - pos < w by omega]
    · simp [hw]

/-- A field that fits is its value times the weight of its place. -/
theorem toNat_placeAt {w pos n : Nat} (h : pos + n ≤ w) (v : BitVec n) :
    (placeAt w pos v).toNat = v.toNat * 2 ^ pos := by
  have hv := v.isLt
  have hp : v.toNat * 2 ^ pos < 2 ^ w :=
    calc v.toNat * 2 ^ pos < 2 ^ n * 2 ^ pos := Nat.mul_lt_mul_of_pos_right hv (Nat.two_pow_pos pos)
      _ = 2 ^ (pos + n) := by rw [Nat.pow_add, Nat.mul_comm]
      _ ≤ 2 ^ w := Nat.pow_le_pow_right (by decide) h
  have hn : v.toNat < 2 ^ w := lt_of_lt_of_le hv (Nat.pow_le_pow_right (by decide) (by omega))
  simp [placeAt, Nat.shiftLeft_eq, Nat.mod_eq_of_lt hn, Nat.mod_eq_of_lt hp]

/-- A field above a value that lies below its place adds to it. -/
theorem toNat_placeAt_or {w pos n : Nat} (h : pos + n ≤ w) (v : BitVec n) {y : BitVec w} (hy : y.toNat < 2 ^ pos) :
    (placeAt w pos v ||| y).toNat = v.toNat * 2 ^ pos + y.toNat := by
  rw [BitVec.toNat_or, toNat_placeAt h, Nat.mul_comm, ← Nat.two_pow_add_eq_or_of_lt hy]

end Sys2Proof
end

