-- ==== Sys2Proof/Laws/Decode.lean ====
section
/-! SUPPORT. What the decoder can answer: the inversion of `decode` over the opcode table. -/

namespace Sys2Proof

theorem OpcodeRow.accepts_iff (r : OpcodeRow) (w : CommandWord) : r.accepts w = true ↔ w &&& r.mask = r.pattern := by
  simp [OpcodeRow.accepts]

/-- Two different rows differ at a bit that both their masks cover (R51). -/
theorem opcodeTable_disjoint :
    ∀ r ∈ opcodeTable, ∀ r' ∈ opcodeTable, r ≠ r' → (r.pattern ^^^ r'.pattern) &&& r.mask &&& r'.mask ≠ 0 := by
  decide

/-- A word that a row accepts decodes to that row's command, and every command decoded is such (R51). -/
theorem decode_eq_ok {w : CommandWord} {i : Instr} :
    decode w = .ok i ↔ ∃ r ∈ opcodeTable, w &&& r.mask = r.pattern ∧ readOperands r.mnemonic w = i := by
  unfold decode
  constructor
  · cases h : opcodeTable.find? (·.accepts w) with
    | none => simp
    | some r =>
      intro he
      simp only [Except.ok.injEq] at he
      exact ⟨r, List.mem_of_find?_eq_some h,
        (r.accepts_iff w).1 (List.find?_some (p := fun r : OpcodeRow => r.accepts w) h), he⟩
  · rintro ⟨r, hr, hw, rfl⟩
    cases h : opcodeTable.find? (·.accepts w) with
    | none =>
      rw [List.find?_eq_none] at h
      exact absurd ((r.accepts_iff w).2 hw) (h r hr)
    | some r' =>
      have hw' := (r'.accepts_iff w).1 (List.find?_some (p := fun r : OpcodeRow => r.accepts w) h)
      have heq : r = r' := by
        by_contra hne
        apply opcodeTable_disjoint r hr r' (List.mem_of_find?_eq_some h) hne
        rw [← hw, ← hw']
        apply BitVec.eq_of_getLsbD_eq
        intro i _
        rw [show BitVec.getLsbD (0 : CommandWord) i = false by simp]
        simp only [BitVec.getLsbD_and, BitVec.getLsbD_xor]
        cases w.getLsbD i <;> cases r.mask.getLsbD i <;> cases r'.mask.getLsbD i <;> rfl
      subst heq
      rfl

end Sys2Proof
end

