-- ==== Sys2Proof/Laws/Memory.lean ====
section
/-! SUPPORT. The laws of DEST: a read after a write, and every operation keeps the canonical form. -/

namespace Sys2Proof.Machine

@[simp] theorem Memory.read_nil (k : Nat) : Memory.read [] k = none := rfl

@[simp] theorem Memory.read_cons (c : Host.Cell) (m : Memory) (k : Nat) :
    Memory.read (c :: m) k = if c.1 = k then some c.2 else Memory.read m k := rfl

/-- The offsets a write leaves listed: those that were, and the one written. -/
theorem Memory.mem_write {m : Memory} {k : Nat} {v : Byte} {c : Host.Cell} (h : c ∈ m.write k v) :
    c = (k, v) ∨ c ∈ m := by
  induction m with
  | nil => simpa [Memory.write] using h
  | cons d m ih =>
    simp only [Memory.write] at h
    split at h
    · simpa using h
    · split at h
      · rcases List.mem_cons.1 h with h | h
        · exact .inl h
        · exact .inr (List.mem_cons_of_mem _ h)
      · rcases List.mem_cons.1 h with h | h
        · exact .inr (by simp [h])
        · exact (ih h).imp_right (List.mem_cons_of_mem _)

theorem Memory.wf_nil : Memory.wf [] := .nil

theorem Memory.wf_write {m : Memory} (h : m.wf) (k : Nat) (v : Byte) : (m.write k v).wf := by
  induction m with
  | nil => simp [Memory.write, Memory.wf]
  | cons d m ih =>
    have hd := List.pairwise_cons.1 h
    simp only [Memory.write]
    split
    · rename_i hk
      refine List.pairwise_cons.2 ⟨fun c hc => ?_, h⟩
      rcases List.mem_cons.1 hc with rfl | hc
      · exact hk
      · exact hk.trans (hd.1 c hc)
    · split
      · rename_i hk
        exact List.pairwise_cons.2 ⟨fun c hc => hk ▸ hd.1 c hc, hd.2⟩
      · refine List.pairwise_cons.2 ⟨fun c hc => ?_, ih hd.2⟩
        rcases Memory.mem_write hc with rfl | hc
        · simp only; omega
        · exact hd.1 c hc

theorem Memory.wf_writeBytes {m : Memory} (h : m.wf) (k : Nat) (bs : List Byte) : (m.writeBytes k bs).wf := by
  induction bs generalizing m k with
  | nil => exact h
  | cons v bs ih => exact ih (Memory.wf_write h k v) (k + 1)

/-- A read below every listed offset finds nothing. -/
theorem Memory.read_eq_none {m : Memory} {k : Nat} (h : ∀ c ∈ m, c.1 ≠ k) : m.read k = none := by
  induction m with
  | nil => rfl
  | cons d m ih =>
    rw [Memory.read_cons, if_neg (h d (by simp)), ih fun c hc => h c (List.mem_cons_of_mem _ hc)]

/-- A byte that was written is read back, and every other offset reads as before. -/
theorem Memory.read_write {m : Memory} (h : m.wf) (k a : Nat) (v : Byte) :
    (m.write k v).read a = if k = a then some v else m.read a := by
  induction m with
  | nil => simp [Memory.write]
  | cons d m ih =>
    have hd := List.pairwise_cons.1 h
    simp only [Memory.write]
    split
    · simp
    · split
      · rename_i hk
        simp only [Memory.read_cons, ← hk]
        split <;> rfl
      · rename_i h1 h2
        simp only [Memory.read_cons, ih hd.2]
        by_cases hda : d.1 = a
        · simp only [hda, if_true]
          rw [if_neg (by omega)]
        · simp [hda]

/-- What is read after a run of bytes was written from `k` on. -/
theorem Memory.read_writeBytes {m : Memory} (h : m.wf) (k a : Nat) (bs : List Byte) :
    (m.writeBytes k bs).read a = if k ≤ a ∧ a < k + bs.length then bs[a - k]? else m.read a := by
  induction bs generalizing m k with
  | nil =>
    rw [if_neg (by simp)]
    rfl
  | cons v bs ih =>
    rw [Memory.writeBytes, ih (Memory.wf_write h k v) (k + 1), Memory.read_write h]
    by_cases ha : k = a
    · subst ha
      simp
    · by_cases hin : k + 1 ≤ a ∧ a < k + 1 + bs.length
      · rw [if_pos hin, if_pos (by simp; omega), show a - k = (a - (k + 1)) + 1 by omega]
        simp
      · rw [if_neg hin, if_neg ha, if_neg (by simp; omega)]

end Sys2Proof.Machine
end

