-- ==== Sys2Proof/Laws/Response.lean ====
section
/-! SUPPORT. The fields of a response word are the fields it was made of, and no response holds a reserved output. -/

namespace Sys2Proof.Machine

/-- The response word as a number: each field times the weight of its place (R18). -/
theorem Response.toNat_word (r : Response) :
    r.word.toNat = r.data.toNat * 256 + (r.diag.code.toNat * 64 + (r.cls.code.toNat * 16 + r.status.code.toNat)) := by
  have hs := r.status.code.isLt
  have hc := r.cls.code.isLt
  have hd := r.diag.code.isLt
  have h0 : (placeAt 32 0 r.status.code).toNat = r.status.code.toNat := by
    simpa using toNat_placeAt (w := 32) (pos := 0) (by decide) r.status.code
  have h1 : (placeAt 32 4 r.cls.code ||| placeAt 32 0 r.status.code).toNat
      = r.cls.code.toNat * 16 + r.status.code.toNat := by
    rw [toNat_placeAt_or (by decide) _ (by omega), h0]
    omega
  have h2 : (placeAt 32 6 r.diag.code ||| (placeAt 32 4 r.cls.code ||| placeAt 32 0 r.status.code)).toNat
      = r.diag.code.toNat * 64 + (r.cls.code.toNat * 16 + r.status.code.toNat) := by
    rw [toNat_placeAt_or (by decide) _ (by omega), h1]
    omega
  rw [Response.word, BitVec.or_assoc, BitVec.or_assoc, toNat_placeAt_or (by decide) _ (by omega), h2]
  omega

@[simp] theorem Response.status_word (r : Response) : rspStatus r.word = r.status.code := by
  apply BitVec.eq_of_toNat_eq
  simp only [rspStatus, BitVec.extractLsb'_toNat, r.toNat_word, Nat.shiftRight_eq_div_pow]
  omega

@[simp] theorem Response.class_word (r : Response) : rspClass r.word = r.cls.code := by
  apply BitVec.eq_of_toNat_eq
  simp only [rspClass, BitVec.extractLsb'_toNat, r.toNat_word, Nat.shiftRight_eq_div_pow]
  omega

@[simp] theorem Response.diag_word (r : Response) : rspDiag r.word = r.diag.code := by
  apply BitVec.eq_of_toNat_eq
  simp only [rspDiag, BitVec.extractLsb'_toNat, r.toNat_word, Nat.shiftRight_eq_div_pow]
  omega

@[simp] theorem Response.data_word (r : Response) : rspData r.word = r.data := by
  apply BitVec.eq_of_toNat_eq
  simp only [rspData, BitVec.extractLsb'_toNat, r.toNat_word, Nat.shiftRight_eq_div_pow]
  omega

@[simp] theorem Response.reserved_word (r : Response) : rspReserved r.word = 0#8 := by
  apply BitVec.eq_of_toNat_eq
  simp only [rspReserved, BitVec.extractLsb'_toNat, r.toNat_word, Nat.shiftRight_eq_div_pow, BitVec.toNat_ofNat]
  have := r.data.isLt
  omega

/-- No response holds a reserved output (R62). -/
theorem Response.word_legal (r : Response) : rspLegal r.word = true := by
  have hs : isStatusCode r.status.code = true := by cases r.status <;> decide
  have hd : r.diag.code ≠ 3 := by cases r.diag <;> decide
  simpa [rspLegal, hs] using hd

end Sys2Proof.Machine
end

