-- ==== Sys2Proof/Laws/State.lean ====
section
/-! SUPPORT. Every field of the state after every update: one lemma each, so that no proof unfolds a record. -/

namespace Sys2Proof.Machine

/-! ### `withRx` -/

@[simp] theorem State.withRx_config (s : State) (v : List Byte) : (s.withRx v).config = s.config := rfl
@[simp] theorem State.withRx_rx (s : State) (v : List Byte) : (s.withRx v).rx = v := rfl
@[simp] theorem State.withRx_rsp (s : State) (v : List Byte) : (s.withRx v).rsp = s.rsp := rfl
@[simp] theorem State.withRx_src (s : State) (v : List Byte) : (s.withRx v).src = s.src := rfl
@[simp] theorem State.withRx_readError (s : State) (v : List Byte) : (s.withRx v).readError = s.readError := rfl
@[simp] theorem State.withRx_dest (s : State) (v : List Byte) : (s.withRx v).dest = s.dest := rfl
@[simp] theorem State.withRx_pending (s : State) (v : List Byte) : (s.withRx v).pending = s.pending := rfl

/-! ### `withRsp` -/

@[simp] theorem State.withRsp_config (s : State) (v : ResponseWord) : (s.withRsp v).config = s.config := rfl
@[simp] theorem State.withRsp_rx (s : State) (v : ResponseWord) : (s.withRsp v).rx = s.rx := rfl
@[simp] theorem State.withRsp_rsp (s : State) (v : ResponseWord) : (s.withRsp v).rsp = v := rfl
@[simp] theorem State.withRsp_src (s : State) (v : ResponseWord) : (s.withRsp v).src = s.src := rfl
@[simp] theorem State.withRsp_readError (s : State) (v : ResponseWord) : (s.withRsp v).readError = s.readError := rfl
@[simp] theorem State.withRsp_dest (s : State) (v : ResponseWord) : (s.withRsp v).dest = s.dest := rfl
@[simp] theorem State.withRsp_pending (s : State) (v : ResponseWord) : (s.withRsp v).pending = s.pending := rfl

/-! ### `withSrc` -/

@[simp] theorem State.withSrc_config (s : State) (v : List Byte) : (s.withSrc v).config = s.config := rfl
@[simp] theorem State.withSrc_rx (s : State) (v : List Byte) : (s.withSrc v).rx = s.rx := rfl
@[simp] theorem State.withSrc_rsp (s : State) (v : List Byte) : (s.withSrc v).rsp = s.rsp := rfl
@[simp] theorem State.withSrc_src (s : State) (v : List Byte) : (s.withSrc v).src = v := rfl
@[simp] theorem State.withSrc_readError (s : State) (v : List Byte) : (s.withSrc v).readError = s.readError := rfl
@[simp] theorem State.withSrc_dest (s : State) (v : List Byte) : (s.withSrc v).dest = s.dest := rfl
@[simp] theorem State.withSrc_pending (s : State) (v : List Byte) : (s.withSrc v).pending = s.pending := rfl

/-! ### `withReadError` -/

@[simp] theorem State.withReadError_config (s : State) (v : Option Nat) : (s.withReadError v).config = s.config := rfl
@[simp] theorem State.withReadError_rx (s : State) (v : Option Nat) : (s.withReadError v).rx = s.rx := rfl
@[simp] theorem State.withReadError_rsp (s : State) (v : Option Nat) : (s.withReadError v).rsp = s.rsp := rfl
@[simp] theorem State.withReadError_src (s : State) (v : Option Nat) : (s.withReadError v).src = s.src := rfl
@[simp] theorem State.withReadError_readError (s : State) (v : Option Nat) : (s.withReadError v).readError = v := rfl
@[simp] theorem State.withReadError_dest (s : State) (v : Option Nat) : (s.withReadError v).dest = s.dest := rfl
@[simp] theorem State.withReadError_pending (s : State) (v : Option Nat) : (s.withReadError v).pending = s.pending := rfl

/-! ### `withDest` -/

@[simp] theorem State.withDest_config (s : State) (v : Memory) : (s.withDest v).config = s.config := rfl
@[simp] theorem State.withDest_rx (s : State) (v : Memory) : (s.withDest v).rx = s.rx := rfl
@[simp] theorem State.withDest_rsp (s : State) (v : Memory) : (s.withDest v).rsp = s.rsp := rfl
@[simp] theorem State.withDest_src (s : State) (v : Memory) : (s.withDest v).src = s.src := rfl
@[simp] theorem State.withDest_readError (s : State) (v : Memory) : (s.withDest v).readError = s.readError := rfl
@[simp] theorem State.withDest_dest (s : State) (v : Memory) : (s.withDest v).dest = v := rfl
@[simp] theorem State.withDest_pending (s : State) (v : Memory) : (s.withDest v).pending = s.pending := rfl

/-! ### `withPending` -/

@[simp] theorem State.withPending_config (s : State) (v : List Event) : (s.withPending v).config = s.config := rfl
@[simp] theorem State.withPending_rx (s : State) (v : List Event) : (s.withPending v).rx = s.rx := rfl
@[simp] theorem State.withPending_rsp (s : State) (v : List Event) : (s.withPending v).rsp = s.rsp := rfl
@[simp] theorem State.withPending_src (s : State) (v : List Event) : (s.withPending v).src = s.src := rfl
@[simp] theorem State.withPending_readError (s : State) (v : List Event) : (s.withPending v).readError = s.readError := rfl
@[simp] theorem State.withPending_dest (s : State) (v : List Event) : (s.withPending v).dest = s.dest := rfl
@[simp] theorem State.withPending_pending (s : State) (v : List Event) : (s.withPending v).pending = v := rfl

/-! ### `respond` -/

@[simp] theorem State.respond_config (s : State) (r : Response) : (s.respond r).config = s.config := rfl
@[simp] theorem State.respond_rx (s : State) (r : Response) : (s.respond r).rx = s.rx := rfl
@[simp] theorem State.respond_rsp (s : State) (r : Response) : (s.respond r).rsp = r.word := rfl
@[simp] theorem State.respond_src (s : State) (r : Response) : (s.respond r).src = s.src := rfl
@[simp] theorem State.respond_readError (s : State) (r : Response) : (s.respond r).readError = s.readError := rfl
@[simp] theorem State.respond_dest (s : State) (r : Response) : (s.respond r).dest = s.dest := rfl
@[simp] theorem State.respond_pending (s : State) (r : Response) : (s.respond r).pending = s.pending := rfl

/-! ### `destWrite` -/

@[simp] theorem State.destWrite_config (s : State) (k : Nat) (v : Byte) : (s.destWrite k v).config = s.config := rfl
@[simp] theorem State.destWrite_rx (s : State) (k : Nat) (v : Byte) : (s.destWrite k v).rx = s.rx := rfl
@[simp] theorem State.destWrite_rsp (s : State) (k : Nat) (v : Byte) : (s.destWrite k v).rsp = s.rsp := rfl
@[simp] theorem State.destWrite_src (s : State) (k : Nat) (v : Byte) : (s.destWrite k v).src = s.src := rfl
@[simp] theorem State.destWrite_readError (s : State) (k : Nat) (v : Byte) : (s.destWrite k v).readError = s.readError := rfl
@[simp] theorem State.destWrite_dest (s : State) (k : Nat) (v : Byte) : (s.destWrite k v).dest = s.dest.write k v := rfl
@[simp] theorem State.destWrite_pending (s : State) (k : Nat) (v : Byte) : (s.destWrite k v).pending = s.pending := rfl

/-! ### `destWriteBytes` -/

@[simp] theorem State.destWriteBytes_config (s : State) (k : Nat) (bs : List Byte) : (s.destWriteBytes k bs).config = s.config := rfl
@[simp] theorem State.destWriteBytes_rx (s : State) (k : Nat) (bs : List Byte) : (s.destWriteBytes k bs).rx = s.rx := rfl
@[simp] theorem State.destWriteBytes_rsp (s : State) (k : Nat) (bs : List Byte) : (s.destWriteBytes k bs).rsp = s.rsp := rfl
@[simp] theorem State.destWriteBytes_src (s : State) (k : Nat) (bs : List Byte) : (s.destWriteBytes k bs).src = s.src := rfl
@[simp] theorem State.destWriteBytes_readError (s : State) (k : Nat) (bs : List Byte) : (s.destWriteBytes k bs).readError = s.readError := rfl
@[simp] theorem State.destWriteBytes_dest (s : State) (k : Nat) (bs : List Byte) : (s.destWriteBytes k bs).dest = s.dest.writeBytes k bs := rfl
@[simp] theorem State.destWriteBytes_pending (s : State) (k : Nat) (bs : List Byte) : (s.destWriteBytes k bs).pending = s.pending := rfl

/-! ### `clear` -/

@[simp] theorem State.clear_config (s : State) : (s.clear).config = s.config := rfl
@[simp] theorem State.clear_rx (s : State) : (s.clear).rx = [] := rfl
@[simp] theorem State.clear_rsp (s : State) : (s.clear).rsp = s.rsp := rfl
@[simp] theorem State.clear_src (s : State) : (s.clear).src = s.src := rfl
@[simp] theorem State.clear_readError (s : State) : (s.clear).readError = s.readError := rfl
@[simp] theorem State.clear_dest (s : State) : (s.clear).dest = s.dest := rfl
@[simp] theorem State.clear_pending (s : State) : (s.clear).pending = s.pending := rfl

/-! ### `powerOn` -/

@[simp] theorem State.powerOn_config (s : State) : (s.powerOn).config = s.config := rfl
@[simp] theorem State.powerOn_rx (s : State) : (s.powerOn).rx = [] := rfl
@[simp] theorem State.powerOn_rsp (s : State) : (s.powerOn).rsp = 0#32 := rfl
@[simp] theorem State.powerOn_src (s : State) : (s.powerOn).src = s.src := rfl
@[simp] theorem State.powerOn_readError (s : State) : (s.powerOn).readError = s.readError := rfl
@[simp] theorem State.powerOn_dest (s : State) : (s.powerOn).dest = s.dest := rfl
@[simp] theorem State.powerOn_pending (s : State) : (s.powerOn).pending = s.pending := rfl

/-! ### `issue` -/

@[simp] theorem State.issue_config (s : State) (w : CommandWord) : (s.issue w).config = s.config := rfl
@[simp] theorem State.issue_rx (s : State) (w : CommandWord) : (s.issue w).rx = s.rx := rfl
@[simp] theorem State.issue_rsp (s : State) (w : CommandWord) : (s.issue w).rsp = s.rsp := rfl
@[simp] theorem State.issue_src (s : State) (w : CommandWord) : (s.issue w).src = s.src := rfl
@[simp] theorem State.issue_readError (s : State) (w : CommandWord) : (s.issue w).readError = s.readError := rfl
@[simp] theorem State.issue_dest (s : State) (w : CommandWord) : (s.issue w).dest = s.dest := rfl
@[simp] theorem State.issue_pending (s : State) (w : CommandWord) : (s.issue w).pending = .command w :: s.pending := rfl

/-! ### An outcome and its continuation -/

@[simp] theorem andThen_next (s : State) (f : State → Result) : andThen (.next s) f = f s := rfl
@[simp] theorem andThen_fault (r : Fault) (f : State → Result) : andThen (.fault r) f = .fault r := rfl
@[simp] theorem andThen_refused (r : Refusal) (f : State → Result) : andThen (.refused r) f = .refused r := rfl

/-- An outcome that goes on to a next state was itself a next state. -/
theorem andThen_eq_next {o : Result} {f : State → Result} {t : State} (h : andThen o f = .next t) :
    ∃ s, o = .next s ∧ f s = .next t := by
  cases o with
  | next s => exact ⟨s, rfl, h⟩
  | fault r => cases h
  | refused r => cases h

end Sys2Proof.Machine
end

