-- ==== Sys2Proof/Laws/Deframer.lean ====
section
/-! SUPPORT. One lemma per shared operation of the de-framer that says all it can do, and the inversion of POLL. -/

namespace Sys2Proof.Machine

/-! ### Buffer manager and source -/

theorem State.append_fits {s : State} {bs : List Byte} (h : s.rx.length + bs.length ≤ s.config.cap) :
    s.append bs = .next (s.withRx (s.rx ++ bs)) := if_pos h

theorem State.compact_within {s : State} {k : Nat} (h : k ≤ s.rx.length) :
    s.compact k = .next (s.withRx (s.rx.drop k)) := if_pos h

/-! ### Bytes -/

theorem isMarker_eq_false {b : Byte} : isMarker b = false ↔ b ≠ 0x24#8 ∧ b ≠ 0xD3#8 := by
  simp [isMarker, dollar, preamble]

theorem isMarker_eq_true {b : Byte} : isMarker b = true ↔ b = 0x24#8 ∨ b = 0xD3#8 := by
  simp [isMarker, dollar, preamble]

theorem byteAt_eq_of_getElem? {h : List Byte} {k : Nat} {b : Byte} (hb : h[k]? = some b) : byteAt h k = b := by
  simp [byteAt, List.getD_eq_getElem?_getD, hb]

theorem byteAt_drop (rx : List Byte) (i k : Nat) (h : i + k < rx.length) : byteAt (rx.drop i) k = rx[i + k] := by
  apply byteAt_eq_of_getElem?
  simp [h]

@[simp] theorem destCapacity_eq (dcap : BitVec 16) : destCapacity dcap = dcap.toNat := by
  have := dcap.isLt
  simp only [destCapacity, BitVec.toNat_setWidth]
  omega

/-! ### The searches -/

/-- The scan finds nothing exactly when no byte is a marker (R75, R82). -/
theorem firstMarker_eq_none {rx : List Byte} : firstMarker rx = none ↔ MarkerFree rx := by
  simp [firstMarker, List.findIdx?_eq_none_iff, isMarker_eq_false]

/-- The scan finds `i` exactly when the byte there is a marker and none before it is (R75). -/
theorem firstMarker_eq_some {rx : List Byte} {i : Nat} :
    firstMarker rx = some i ↔ NmeaAt rx i ∨ RtcmAt rx i := by
  rw [firstMarker, List.findIdx?_eq_some_iff_getElem]
  have free (h : i < rx.length) : (∀ j (hj : j < i), ¬ isMarker rx[j] = true) ↔ MarkerFree (rx.take i) := by
    constructor
    · intro hf b hb
      obtain ⟨j, hj, rfl⟩ := List.getElem_of_mem hb
      simp only [List.length_take] at hj
      rw [List.getElem_take]
      exact isMarker_eq_false.1 (by simpa using hf j (by omega))
    · intro hf j hj
      have hm : rx[j] ∈ rx.take i := List.mem_take_iff_getElem.2 ⟨j, by omega, rfl⟩
      simpa using isMarker_eq_false.2 (hf _ hm)
  constructor
  · rintro ⟨h, hm, hf⟩
    rcases isMarker_eq_true.1 hm with hb | hb
    · exact .inl ⟨(free h).1 hf, by simp [h, hb]⟩
    · exact .inr ⟨(free h).1 hf, by simp [h, hb]⟩
  · rintro (⟨hf, hb⟩ | ⟨hf, hb⟩)
    · obtain ⟨h, hb⟩ := List.getElem?_eq_some_iff.1 hb
      exact ⟨h, isMarker_eq_true.2 (.inl hb), (free h).2 hf⟩
    · obtain ⟨h, hb⟩ := List.getElem?_eq_some_iff.1 hb
      exact ⟨h, isMarker_eq_true.2 (.inr hb), (free h).2 hf⟩

/-- The CR LF search finds nothing exactly when no pair is CR LF (R76). -/
theorem findCrLf_eq_none {l : List Byte} : findCrLf l = none ↔ ∀ m, ¬ CrLfAt l m := by
  fun_induction findCrLf l with
  | case1 a b rest h =>
    simp only [reduceCtorEq, false_iff, not_forall, not_not]
    exact ⟨0, by simp [h.1, carriageReturn], by simp [h.2, lineFeed]⟩
  | case2 a b rest h ih =>
    rw [Option.map_eq_none_iff, ih]
    constructor
    · intro hn m
      cases m with
      | zero => simpa [CrLfAt, carriageReturn, lineFeed] using h
      | succ m => simpa [CrLfAt] using hn m
    · intro hn m
      simpa [CrLfAt] using hn (m + 1)
  | case3 l h =>
    simp only [true_iff]
    intro m ⟨h0, h1⟩
    match l with
    | [] => simp at h0
    | [a] => simp at h1
    | a :: b :: rest => exact h a b rest rfl

/-- The CR LF search finds the first pair CR LF (R76). -/
theorem findCrLf_eq_some {l : List Byte} {k : Nat} :
    findCrLf l = some k ↔ CrLfAt l k ∧ ∀ m < k, ¬ CrLfAt l m := by
  fun_induction findCrLf l generalizing k with
  | case1 a b rest h =>
    have h0 : CrLfAt (a :: b :: rest) 0 := ⟨by simp [h.1, carriageReturn], by simp [h.2, lineFeed]⟩
    constructor
    · rintro ⟨⟩
      exact ⟨h0, by simp⟩
    · rintro ⟨_, hf⟩
      rcases Nat.eq_zero_or_pos k with rfl | hk
      · rfl
      · exact absurd h0 (hf 0 hk)
  | case2 a b rest h ih =>
    have h0 : ¬ CrLfAt (a :: b :: rest) 0 := by simpa [CrLfAt, carriageReturn, lineFeed] using h
    have hs (m : Nat) : CrLfAt (a :: b :: rest) (m + 1) ↔ CrLfAt (b :: rest) m := by simp [CrLfAt]
    rw [Option.map_eq_some_iff]
    constructor
    · rintro ⟨n, hn, rfl⟩
      obtain ⟨hc, hf⟩ := ih.1 hn
      refine ⟨(hs n).2 hc, fun m hm => ?_⟩
      cases m with
      | zero => exact h0
      | succ m => exact fun hx => hf m (by omega) ((hs m).1 hx)
    · rintro ⟨hc, hf⟩
      cases k with
      | zero => exact absurd hc h0
      | succ n => exact ⟨n, ih.2 ⟨(hs n).1 hc, fun m hm hx => hf (m + 1) (by omega) ((hs m).2 hx)⟩, rfl⟩
  | case3 l h =>
    simp only [reduceCtorEq, false_iff, not_and]
    intro ⟨h0, h1⟩
    match l with
    | [] => simp at h0
    | [a] => simp at h1
    | a :: b :: rest => exact absurd rfl (h a b rest)

end Sys2Proof.Machine
end

