-- ==== Sys2Proof/Laws/Growth.lean ====
section
/-! SUPPORT. What a buffer holds it still holds after more bytes came in behind. -/

namespace Sys2Proof.Machine

theorem getElem?_append_of_some {rx : List Byte} {k : Nat} {b : Byte} (ys : List Byte) (h : rx[k]? = some b) :
    (rx ++ ys)[k]? = some b := by
  rw [List.getElem?_append_left (List.getElem?_eq_some_iff.1 h).1, h]

theorem take_append_of_some {rx : List Byte} {i : Nat} {b : Byte} (ys : List Byte) (h : rx[i]? = some b) :
    (rx ++ ys).take i = rx.take i := by
  have := (List.getElem?_eq_some_iff.1 h).1
  rw [List.take_append_of_le_length (by omega)]

theorem NmeaAt.append {rx : List Byte} {i : Nat} (ys : List Byte) (h : NmeaAt rx i) : NmeaAt (rx ++ ys) i :=
  ⟨by rw [take_append_of_some ys h.2]; exact h.1, getElem?_append_of_some ys h.2⟩

theorem RtcmAt.append {rx : List Byte} {i : Nat} (ys : List Byte) (h : RtcmAt rx i) : RtcmAt (rx ++ ys) i :=
  ⟨by rw [take_append_of_some ys h.2]; exact h.1, getElem?_append_of_some ys h.2⟩

theorem HeaderAt.append {rx : List Byte} {i : Nat} {h1 h2 : Byte} (ys : List Byte) (h : HeaderAt rx i h1 h2) :
    HeaderAt (rx ++ ys) i h1 h2 :=
  ⟨by have := h.1; simp only [List.length_append]; omega, getElem?_append_of_some ys h.2.1,
    getElem?_append_of_some ys h.2.2⟩

/-- A whole frame's CRC check does not depend on the bytes behind the frame. -/
theorem crcAgrees_append {rx : List Byte} {i l : Nat} (ys : List Byte) (h : i + 6 + l ≤ rx.length) :
    CrcAgrees (rx ++ ys) i l ↔ CrcAgrees rx i l := by
  have htake : ((rx ++ ys).drop i).take (3 + l) = (rx.drop i).take (3 + l) := by
    rw [List.drop_append_of_le_length (by omega), List.take_append_of_le_length (by simp; omega)]
  have hget (k : Nat) (hk : k < rx.length) : (rx ++ ys)[k]? = rx[k]? := List.getElem?_append_left hk
  simp only [CrcAgrees, htake]
  rw [hget _ (by omega), hget _ (by omega), hget _ (by omega)]

theorem FirstCrLfAfter.append {rx : List Byte} {i j : Nat} (ys : List Byte) (h : FirstCrLfAfter rx i j) :
    FirstCrLfAfter (rx ++ ys) i j := by
  obtain ⟨h1, h2, h3⟩ := h
  refine ⟨h1, ⟨getElem?_append_of_some ys h2.1, getElem?_append_of_some ys h2.2⟩, fun m hm hle hx => h3 m hm hle ?_⟩
  have := (List.getElem?_eq_some_iff.1 h2.2).1
  rwa [CrLfAt, List.getElem?_append_left (by omega), List.getElem?_append_left (by omega)] at hx

/-- A complete packet stays one. -/
theorem PacketAt.append {rx : List Byte} {i span : Nat} {cls : PacketClass} (ys : List Byte) (h : PacketAt rx i span cls) :
    PacketAt (rx ++ ys) i span cls := by
  rcases h with ⟨rfl, hn, j, hj, rfl⟩ | ⟨rfl, l, ⟨hr, h1, h2, hh, h4, rfl, hl, hc⟩, rfl⟩
  · exact .inl ⟨rfl, NmeaAt.append ys hn, j, FirstCrLfAfter.append ys hj, rfl⟩
  · exact .inr ⟨rfl, _, ⟨RtcmAt.append ys hr, h1, h2, HeaderAt.append ys hh, h4, rfl,
      by simp only [List.length_append]; omega, (crcAgrees_append ys hl).2 hc⟩, rfl⟩

/-- A proven-invalid candidate stays one. -/
theorem ProvenInvalidAt.append {rx : List Byte} {i : Nat} {d : Diag} (ys : List Byte) (h : ProvenInvalidAt rx i d) :
    ProvenInvalidAt (rx ++ ys) i d := by
  obtain ⟨hr, h1, h2, hh, h⟩ := h
  refine ⟨RtcmAt.append ys hr, h1, h2, HeaderAt.append ys hh, h.imp id ?_⟩
  rintro ⟨rfl, h4, hl, hc⟩
  exact ⟨rfl, h4, by simp only [List.length_append]; omega, mt (crcAgrees_append ys hl).1 hc⟩

end Sys2Proof.Machine
end

