-- ==== Sys2Proof/Laws/PerInstr.lean ====
section
/-! SUPPORT. The families of statements about every command as syntax, one lemma per constructor.
`EncodingHasOwnRow`: the word of a command passes the test of its own row of the opcode table, whatever its operands. -/

namespace Sys2Proof.Laws.EncodingHasOwnRow

/-- Some row of the opcode table bears the command's mnemonic and accepts the command's word (R51). -/
def Statement (i : Instr) : Prop :=
  ∃ r ∈ opcodeTable, r.mnemonic = mnemonicOf i ∧ r.accepts (encode i) = true

theorem poll (dcap : BitVec 16) : Statement (.poll dcap) := by
  refine ⟨⟨.poll, 0xFFFFFFFFFF0000FF#64, 0x0000000000000001#64⟩, by decide, rfl, ?_⟩
  rw [OpcodeRow.accepts, beq_iff_eq]
  apply BitVec.eq_of_getLsbD_eq
  intro i hi
  simp only [encode, BitVec.getLsbD_and, BitVec.getLsbD_or, getLsbD_placeAt]
  interval_cases i <;> simp

theorem reset : Statement .reset :=
  ⟨⟨.reset, 0xFFFFFFFFFFFFFFFF#64, 0x0000000000000002#64⟩, by decide, rfl, by decide⟩

theorem classify (b0 : Byte) (plen : BitVec 16) : Statement (.classify b0 plen) := by
  refine ⟨⟨.classify, 0xFFFFFFFF000000FF#64, 0x0000000000000003#64⟩, by decide, rfl, ?_⟩
  rw [OpcodeRow.accepts, beq_iff_eq]
  apply BitVec.eq_of_getLsbD_eq
  intro i hi
  simp only [encode, BitVec.getLsbD_and, BitVec.getLsbD_or, getLsbD_placeAt]
  interval_cases i <;> simp

theorem rtcmLen (h0 h1 h2 h3 h4 : Byte) : Statement (.rtcmLen h0 h1 h2 h3 h4) := by
  refine ⟨⟨.rtcmLen, 0xFFFF0000000000FF#64, 0x0000000000000004#64⟩, by decide, rfl, ?_⟩
  rw [OpcodeRow.accepts, beq_iff_eq]
  apply BitVec.eq_of_getLsbD_eq
  intro i hi
  simp only [encode, BitVec.getLsbD_and, BitVec.getLsbD_or, getLsbD_placeAt]
  interval_cases i <;> simp

theorem rtcmType (h0 h1 h2 h3 h4 : Byte) : Statement (.rtcmType h0 h1 h2 h3 h4) := by
  refine ⟨⟨.rtcmType, 0xFFFF0000000000FF#64, 0x0000000000000005#64⟩, by decide, rfl, ?_⟩
  rw [OpcodeRow.accepts, beq_iff_eq]
  apply BitVec.eq_of_getLsbD_eq
  intro i hi
  simp only [encode, BitVec.getLsbD_and, BitVec.getLsbD_or, getLsbD_placeAt]
  interval_cases i <;> simp

end Sys2Proof.Laws.EncodingHasOwnRow
end

