-- ==== Sys2Proof/Laws/Rtcm.lean ====
section
/-! SUPPORT. The RTCM3 primitives as numbers, and the small laws of the CRC. -/

namespace Sys2Proof.Machine

/-- The payload length as a number (R63). -/
theorem toNat_payloadLength (h : List Byte) : (payloadLength h).toNat = lengthOf (byteAt h 1) (byteAt h 2) := by
  have h2 := (byteAt h 2).isLt
  have low : (placeAt 10 0 (byteAt h 2)).toNat = (byteAt h 2).toNat := by
    simpa using toNat_placeAt (w := 10) (pos := 0) (by decide) (byteAt h 2)
  rw [payloadLength, toNat_placeAt_or (by decide) _ (by omega), low]
  simp [lengthOf, BitVec.extractLsb'_toNat]

/-- The message type as a number (R64). -/
theorem toNat_messageType (h : List Byte) :
    (messageType h).toNat = (byteAt h 3).toNat * 16 + (byteAt h 4).toNat / 16 := by
  have h4 := (byteAt h 4).isLt
  have low : (placeAt 12 0 ((byteAt h 4).extractLsb' 4 4)).toNat = (byteAt h 4).toNat / 16 := by
    rw [toNat_placeAt (by decide)]
    simp only [BitVec.extractLsb'_toNat, Nat.shiftRight_eq_div_pow]
    omega
  rw [messageType, toNat_placeAt_or (by decide) _ (by omega), low]
  omega

/-- The reserved bits are all zero exactly when the byte after the preamble is below 4 (R65). -/
theorem reservedOk_iff (h : List Byte) : reservedOk h = true ↔ (byteAt h 1).toNat < 4 := by
  have h1 := (byteAt h 1).isLt
  simp only [reservedOk, beq_iff_eq, ← BitVec.toNat_inj, BitVec.extractLsb'_toNat, Nat.shiftRight_eq_div_pow,
    BitVec.toNat_ofNat]
  omega

/-- The trailer as a number, its first byte the most significant (R67). -/
theorem toNat_trailer (h : List Byte) (l : Nat) :
    (trailer h l).toNat = bigEndian24 (byteAt h (3 + l)) (byteAt h (4 + l)) (byteAt h (5 + l)) := by
  have h1 := (byteAt h (4 + l)).isLt
  have h0 := (byteAt h (5 + l)).isLt
  have low : (placeAt 24 0 (byteAt h (5 + l))).toNat = (byteAt h (5 + l)).toNat := by
    simpa using toNat_placeAt (w := 24) (pos := 0) (by decide) (byteAt h (5 + l))
  have mid : (placeAt 24 8 (byteAt h (4 + l)) ||| placeAt 24 0 (byteAt h (5 + l))).toNat
      = (byteAt h (4 + l)).toNat * 256 + (byteAt h (5 + l)).toNat := by
    rw [toNat_placeAt_or (by decide) _ (by omega), low]
    omega
  rw [trailer, BitVec.or_assoc, toNat_placeAt_or (by decide) _ (by omega), mid, bigEndian24]
  omega

/-! ### CRC-24Q -/

/-- Bit steps add up. -/
theorem crcShifts_add (m n : Nat) (c : BitVec 25) : crcShifts (m + n) c = crcShifts n (crcShifts m c) := by
  induction m generalizing c with
  | zero => simp [crcShifts]
  | succ m ih => rw [Nat.succ_add, crcShifts, crcShifts, ih]

/-- The register after the bytes `s` then `t`. -/
theorem crc_foldl_append (s t : List Byte) (c : BitVec 25) : (s ++ t).foldl crcByte c = t.foldl crcByte (s.foldl crcByte c) :=
  List.foldl_append

end Sys2Proof.Machine
end

