-- ==== Sys2Proof/Laws/Poll.lean ====
section
/-! SUPPORT. What REJECT, EXTRACT, the scan and POLL can do: the inversion lemmas from which every claim about POLL follows. -/

namespace Sys2Proof.Machine

/-! ### Reject and Extract -/

/-- The state a rejection leaves (R79). -/
def State.rejected (s : State) (i : Nat) : State :=
  match s.config.badFramePolicy with
  | .discard => s.withRx (s.rx.drop (i + 1))
  | .retain => s

theorem reject_next {s : State} {i : Nat} (h : i < s.rx.length) (d : Diag) :
    reject i d s = .next (noPacket d (s.rejected i)) := by
  unfold reject State.rejected
  cases s.config.badFramePolicy with
  | discard => rw [State.compact_within (by omega)]; rfl
  | retain => rfl

/-- The state a copy to DEST leaves (R81). -/
def State.extracted (s : State) (i span : Nat) : State :=
  ((s.destWriteBytes 0 ((s.rx.drop i).take span)).destWrite span 0x00).withRx (s.rx.drop (i + span))

theorem extract_next {s : State} {i span : Nat} (h : i + span ≤ s.rx.length) (cls : PacketClass) (dcap : BitVec 16) :
    extract i span cls dcap s =
      if dcap.toNat < span + 1 then .next (s.respond ⟨.bufferTooSmall, cls, .none, BitVec.ofNat 16 span⟩)
      else .next ((s.extracted i span).respond ⟨.packet, cls, .none, BitVec.ofNat 16 span⟩) := by
  unfold extract
  rw [destCapacity_eq]
  split
  · rfl
  · rw [State.compact_within (by simpa using h)]; rfl

/-- What the copy leaves at an offset: the packet, its NUL, and every other byte as it was (R28, R81). -/
theorem State.read_extracted {s : State} {i span : Nat} (hw : s.dest.wf) (h : i + span ≤ s.rx.length) (k : Nat) :
    (s.extracted i span).dest.read k =
      if k < span then s.rx[i + k]? else if k = span then some 0#8 else s.dest.read k := by
  have hl : ((s.rx.drop i).take span).length = span := by simp; omega
  show ((s.dest.writeBytes 0 ((s.rx.drop i).take span)).write span 0x00).read k = _
  rw [Memory.read_write (Memory.wf_writeBytes hw _ _), Memory.read_writeBytes hw, hl]
  by_cases h1 : k < span
  · simp [h1, show span ≠ k by omega, List.getElem?_drop]
  · by_cases h2 : k = span
    · simp [h2]
    · simp [h1, h2, show span ≠ k by omega]

/-! ### The scan -/

/-- The search from `i + 1` on finds the first CR LF after `i` (R76). -/
theorem findCrLf_of_first {rx : List Byte} {i j : Nat} (hj : FirstCrLfAfter rx i j) :
    findCrLf (rx.drop (i + 1)) = some (j - (i + 1)) := by
  obtain ⟨h1, h2, h3⟩ := hj
  rw [findCrLf_eq_some]
  have key (m : Nat) : CrLfAt (rx.drop (i + 1)) m ↔ CrLfAt rx (i + 1 + m) := by
    simp [CrLfAt, List.getElem?_drop, Nat.add_assoc]
  refine ⟨(key _).2 (by rwa [show i + 1 + (j - (i + 1)) = j by omega]), fun m hm hx => ?_⟩
  exact h3 (i + 1 + m) (by omega) (by omega) ((key m).1 hx)

/-- Without a CR LF after `i` the search from `i + 1` on finds nothing (R76). -/
theorem findCrLf_of_none {rx : List Byte} {i : Nat} (h : NoCrLfAfter rx i) : findCrLf (rx.drop (i + 1)) = none := by
  rw [findCrLf_eq_none]
  intro m hx
  have hx' : CrLfAt rx (i + 1 + m) := by simpa [CrLfAt, List.getElem?_drop, Nat.add_assoc] using hx
  exact h _ (List.getElem?_eq_some_iff.1 hx'.1).1 (by omega) hx'

/-- How a scan can end (R75 to R82). -/
inductive ScanEnd (dcap : BitVec 16) (s : State) : State → Prop where
  /-- no marker, or the first candidate waits for more bytes -/
  | waits (h : ∀ i, (∀ span cls, ¬ PacketAt s.rx i span cls) ∧ ∀ d, ¬ ProvenInvalidAt s.rx i d) :
    ScanEnd dcap s (noPacket .none s)
  | rejects (i : Nat) (d : Diag) (h : ProvenInvalidAt s.rx i d) : ScanEnd dcap s (noPacket d (s.rejected i))
  | tooSmall (i span : Nat) (cls : PacketClass) (h : PacketAt s.rx i span cls)
      (hd : dcap.toNat < span + 1) :
    ScanEnd dcap s (s.respond ⟨.bufferTooSmall, cls, .none, BitVec.ofNat 16 span⟩)
  | packet (i span : Nat) (cls : PacketClass) (h : PacketAt s.rx i span cls)
      (hd : span + 1 ≤ dcap.toNat) :
    ScanEnd dcap s ((s.extracted i span).respond ⟨.packet, cls, .none, BitVec.ofNat 16 span⟩)


/-- The check of the frame in the buffer is the check on the numbers (R78). -/
theorem crcAgrees_iff {rx : List Byte} {i l : Nat} (h : i + 6 + l ≤ rx.length) :
    CrcAgrees rx i l ↔ crc24 ((rx.drop i).take (3 + l)) = trailer (rx.drop i) l := by
  rw [← BitVec.toNat_inj, toNat_trailer, byteAt_drop _ _ _ (by omega), byteAt_drop _ _ _ (by omega),
    byteAt_drop _ _ _ (by omega)]
  constructor
  · rintro ⟨c2, c1, c0, h2, h1, h0, hc⟩
    rw [hc]
    obtain ⟨_, rfl⟩ := List.getElem?_eq_some_iff.1 h2
    obtain ⟨_, rfl⟩ := List.getElem?_eq_some_iff.1 h1
    obtain ⟨_, rfl⟩ := List.getElem?_eq_some_iff.1 h0
    simp only [Nat.add_assoc]
  · intro hc
    refine ⟨rx[i + (3 + l)], rx[i + (4 + l)], rx[i + (5 + l)], ?_, ?_, ?_, hc⟩ <;>
      exact List.getElem?_eq_some_iff.2 ⟨by omega, by simp only [Nat.add_assoc]⟩

/-- The marker is found at one place only. -/
theorem marker_unique {rx : List Byte} {i k : Nat} (hi : NmeaAt rx i ∨ RtcmAt rx i) (hk : NmeaAt rx k ∨ RtcmAt rx k) :
    i = k := by
  have := firstMarker_eq_some.2 hi
  rw [firstMarker_eq_some.2 hk] at this
  exact (Option.some.inj this).symm

/-- A complete packet begins at the first marker. -/
theorem PacketAt.marker {rx : List Byte} {i span : Nat} {cls : PacketClass} (h : PacketAt rx i span cls) :
    NmeaAt rx i ∨ RtcmAt rx i := by
  rcases h with ⟨_, h, _⟩ | ⟨_, l, ⟨h, _⟩, _⟩
  · exact .inl h
  · exact .inr h

/-- The first marker is of one kind. -/
theorem not_nmea_and_rtcm {rx : List Byte} {i : Nat} (hn : NmeaAt rx i) (hr : RtcmAt rx i) : False := by
  have := hn.2.symm.trans hr.2
  simp at this

/-- A complete packet lies inside the buffer. -/
theorem PacketAt.within {rx : List Byte} {i span : Nat} {cls : PacketClass} (h : PacketAt rx i span cls) :
    i + span ≤ rx.length := by
  rcases h with ⟨_, _, j, ⟨h1, h2, _⟩, rfl⟩ | ⟨_, l, ⟨_, _, _, _, _, _, h, _⟩, rfl⟩
  · have := (List.getElem?_eq_some_iff.1 h2.2).1
    omega
  · omega

/-- A proven-invalid candidate has its preamble inside the buffer. -/
theorem ProvenInvalidAt.within {rx : List Byte} {i : Nat} {d : Diag} (h : ProvenInvalidAt rx i d) : i < rx.length :=
  (List.getElem?_eq_some_iff.1 h.1.2).1

/-- An NMEA candidate: it waits, or its line is complete (R76). -/
theorem nmeaCandidate_ends (dcap : BitVec 16) {s : State} {i : Nat} (hi : NmeaAt s.rx i) :
    ((∀ span cls, ¬ PacketAt s.rx i span cls) ∧ nmeaCandidate i dcap s = .next (noPacket .none s)) ∨
    ∃ span, PacketAt s.rx i span .nmea ∧ nmeaCandidate i dcap s = extract i span .nmea dcap s := by
  unfold nmeaCandidate
  cases hf : findCrLf (s.rx.drop (i + 1)) with
  | none =>
    refine .inl ⟨fun span cls h => ?_, rfl⟩
    rcases h with ⟨_, _, j, hj, _⟩ | ⟨_, l, ⟨hr, _⟩, _⟩
    · rw [findCrLf_of_first hj] at hf
      cases hf
    · exact not_nmea_and_rtcm hi hr
  | some k =>
    refine .inr ⟨i + 1 + k + 2 - i, .inl ⟨rfl, hi, i + 1 + k, ?_, rfl⟩, rfl⟩
    obtain ⟨hc, hf⟩ := findCrLf_eq_some.1 hf
    have key (m : Nat) : CrLfAt (s.rx.drop (i + 1)) m ↔ CrLfAt s.rx (i + 1 + m) := by
      simp [CrLfAt, List.getElem?_drop, Nat.add_assoc]
    refine ⟨by omega, (key k).1 hc, fun m hm hle hx => hf (m - (i + 1)) (by omega) ((key _).2 ?_)⟩
    rwa [show i + 1 + (m - (i + 1)) = m by omega]

/-- An RTCM candidate: it waits, it is proven invalid, or its frame is valid (R77, R78). -/
theorem rtcmCandidate_ends (dcap : BitVec 16) {s : State} {i : Nat} (hi : RtcmAt s.rx i) :
    ((∀ span cls, ¬ PacketAt s.rx i span cls) ∧ (∀ d, ¬ ProvenInvalidAt s.rx i d) ∧
      rtcmCandidate i dcap s = .next (noPacket .none s)) ∨
    (∃ d, ProvenInvalidAt s.rx i d ∧ rtcmCandidate i dcap s = reject i d s) ∨
    ∃ span, PacketAt s.rx i span .rtcm ∧ rtcmCandidate i dcap s = extract i span .rtcm dcap s := by
  have hlt := (List.getElem?_eq_some_iff.1 hi.2).1
  simp only [rtcmCandidate]
  by_cases ha : s.rx.length - i < 6
  · refine .inl ⟨fun span cls h => ?_, fun d h => ?_, if_pos ha⟩
    · rcases h with ⟨_, hn, _⟩ | ⟨_, l, ⟨_, _, _, h, _⟩, _⟩
      · exact not_nmea_and_rtcm hn hi
      · have := h.1; omega
    · obtain ⟨_, _, _, h, _⟩ := h
      have := h.1; omega
  rw [if_neg ha]
  have e1 : byteAt (s.rx.drop i) 1 = s.rx[i + 1] := byteAt_drop _ _ _ (by omega)
  have e2 : byteAt (s.rx.drop i) 2 = s.rx[i + 2] := byteAt_drop _ _ _ (by omega)
  have hh : HeaderAt s.rx i s.rx[i + 1] s.rx[i + 2] :=
    ⟨by omega, List.getElem?_eq_getElem (by omega), List.getElem?_eq_getElem (by omega)⟩
  have hu {h1 h2 : Byte} (h : HeaderAt s.rx i h1 h2) : h1 = s.rx[i + 1] ∧ h2 = s.rx[i + 2] :=
    ⟨Option.some.inj (h.2.1.symm.trans hh.2.1), Option.some.inj (h.2.2.symm.trans hh.2.2)⟩
  have hr := reservedOk_iff (s.rx.drop i)
  rw [e1] at hr
  by_cases hres : reservedOk (s.rx.drop i) = true
  swap
  · refine .inr (.inl ⟨.reservedBits, ⟨hi, _, _, hh, .inl ⟨rfl, ?_⟩⟩, by simp [hres]⟩)
    rw [hr] at hres
    omega
  have h4 := hr.1 hres
  rw [toNat_payloadLength, e1, e2]
  simp only [hres, Bool.not_true, Bool.false_eq_true, if_false]
  by_cases hw : s.rx.length - i < 6 + lengthOf s.rx[i + 1] s.rx[i + 2]
  · refine .inl ⟨fun span cls h => ?_, fun d h => ?_, if_pos hw⟩
    · rcases h with ⟨_, hn, _⟩ | ⟨_, l, ⟨_, _, _, h, _, rfl, hl, _⟩, _⟩
      · exact not_nmea_and_rtcm hn hi
      · obtain ⟨rfl, rfl⟩ := hu h
        omega
    · obtain ⟨_, _, _, hx, h | h⟩ := h
      · obtain ⟨rfl, rfl⟩ := hu hx
        omega
      · obtain ⟨rfl, rfl⟩ := hu hx
        omega
  rw [if_neg hw]
  have hl : i + 6 + lengthOf s.rx[i + 1] s.rx[i + 2] ≤ s.rx.length := by omega
  by_cases hc : CrcAgrees s.rx i (lengthOf s.rx[i + 1] s.rx[i + 2])
  · refine .inr (.inr ⟨6 + lengthOf s.rx[i + 1] s.rx[i + 2], .inr ⟨rfl, _, ⟨hi, _, _, hh, h4, rfl, hl, hc⟩, rfl⟩, ?_⟩)
    rw [if_neg (not_not.2 ((crcAgrees_iff hl).1 hc))]
  · refine .inr (.inl ⟨.crcMismatch, ⟨hi, _, _, hh, .inr ⟨rfl, h4, hl, hc⟩⟩, ?_⟩)
    rw [if_pos (mt (crcAgrees_iff hl).2 hc)]

/-- What the scan does with a complete packet: the capacity decides (R80, R81). -/
theorem extract_ends (dcap : BitVec 16) {s : State} {i span : Nat} {cls : PacketClass} (h : PacketAt s.rx i span cls) :
    ∃ t, extract i span cls dcap s = .next t ∧ ScanEnd dcap s t := by
  rw [extract_next h.within]
  split
  · exact ⟨_, rfl, .tooSmall i span cls h ‹_›⟩
  · exact ⟨_, rfl, .packet i span cls h (by omega)⟩

/-- The scan always ends, in one of the four ways (R75 to R83). -/
theorem pollScan_ends (dcap : BitVec 16) (s : State) : ∃ t, pollScan dcap s = .next t ∧ ScanEnd dcap s t := by
  unfold pollScan
  cases hm : firstMarker s.rx with
  | none =>
    have hno (i : Nat) : ¬ (NmeaAt s.rx i ∨ RtcmAt s.rx i) := fun h => by
      rw [firstMarker_eq_some.2 h] at hm
      cases hm
    exact ⟨_, rfl, .waits fun i => ⟨fun _ _ h => hno i h.marker, fun _ h => hno i (.inr h.1)⟩⟩
  | some i =>
    show ∃ t, (if byteAt s.rx i = dollar then nmeaCandidate i dcap s else rtcmCandidate i dcap s) = .next t ∧ _
    have hmark := firstMarker_eq_some.1 hm
    have huniq {k : Nat} (hk : NmeaAt s.rx k ∨ RtcmAt s.rx k) : k = i := marker_unique hk hmark
    rcases hmark with hi | hi
    · rw [if_pos (show byteAt s.rx i = dollar from byteAt_eq_of_getElem? hi.2)]
      rcases nmeaCandidate_ends dcap hi with ⟨hno, he⟩ | ⟨span, hp, he⟩
      · refine ⟨_, he, .waits fun k => ⟨fun _ _ h => ?_, fun _ h => ?_⟩⟩
        · obtain rfl := huniq h.marker
          exact hno _ _ h
        · obtain rfl := huniq (.inr h.1)
          exact not_nmea_and_rtcm hi h.1
      · rw [he]
        exact extract_ends dcap hp
    · rw [if_neg (show byteAt s.rx i ≠ dollar by rw [byteAt_eq_of_getElem? hi.2]; decide)]
      rcases rtcmCandidate_ends dcap hi with ⟨hp, hd, he⟩ | ⟨d, hd, he⟩ | ⟨span, hp, he⟩
      · refine ⟨_, he, .waits fun k => ⟨fun _ _ h => ?_, fun _ h => ?_⟩⟩
        · obtain rfl := huniq h.marker
          exact hp _ _ h
        · obtain rfl := huniq (.inr h.1)
          exact hd _ h
      · exact ⟨_, he.trans (reject_next hd.within d), .rejects i d hd⟩
      · rw [he]
        exact extract_ends dcap hp

/-! ### POLL -/

/-- How a POLL can end (R84). -/
inductive PollEnd (dcap : BitVec 16) (s : State) : State → Prop where
  /-- RX is full and bytes are waiting (R73) -/
  | bufferFull (h : s.Stuck) : PollEnd dcap s (s.respond ⟨.bufferFull, .none, .none, 0⟩)
  /-- the read fails (R74) -/
  | readFailure (k : Nat) (hsrc : s.src ≠ []) (hroom : s.rx.length < s.config.cap) (he : s.readError = some k) :
    PollEnd dcap s (((s.withSrc (s.src.drop (min k (min s.src.length (s.config.cap - s.rx.length))))).withReadError
      none).respond ⟨.readFailure, .none, .none, 0⟩)
  /-- the scan runs on the state with the new bytes (R72) -/
  | scans {t u : State} (hi : Ingests s t) (hs : ScanEnd dcap t u) : PollEnd dcap s u

/-- A POLL that takes bytes in goes on with the scan of the state that has them (R72). -/
theorem execPoll_ingests {s t : State} (h : Ingests s t) (dcap : BitVec 16) : execPoll dcap s = pollScan dcap t := by
  rcases h with ⟨hs, rfl⟩ | ⟨hs, hroom, he, rfl⟩
  · simp [execPoll, hs]
  · have hpos : 0 < s.src.length := List.length_pos_of_ne_nil hs
    unfold execPoll
    rw [if_pos hpos, if_neg (Nat.sub_ne_zero_of_lt (by omega) : s.room ≠ 0)]
    have hread (n : Nat) : s.srcRead n = (.bytes (s.src.take n), s.withSrc (s.src.drop n)) := by
      simp only [State.srcRead, he]
    rw [hread]
    have htake : s.src.take (min s.srcAvail s.room) = s.src.take (s.config.cap - s.rx.length) := by
      rw [List.take_eq_take_iff]
      show min (min s.src.length (s.config.cap - s.rx.length)) s.src.length = _
      omega
    have hdrop : s.src.drop (min s.srcAvail s.room) = s.src.drop (s.config.cap - s.rx.length) := by
      show s.src.drop (min s.src.length (s.config.cap - s.rx.length)) = _
      rcases Nat.le_total s.src.length (s.config.cap - s.rx.length) with h | h
      · rw [Nat.min_eq_left h, List.drop_length, List.drop_of_length_le h]
      · rw [Nat.min_eq_right h]
    simp only [htake, hdrop]
    rw [State.append_fits (by simp; omega)]
    rfl

/-- A POLL always ends, in one of the three ways (R71, R83). -/
theorem execPoll_ends (dcap : BitVec 16) (s : State) : ∃ t, execPoll dcap s = .next t ∧ PollEnd dcap s t := by
  by_cases hs : s.src = []
  · obtain ⟨u, hu, he⟩ := pollScan_ends dcap s
    exact ⟨u, (execPoll_ingests (.inl ⟨hs, rfl⟩) dcap).trans hu, .scans (.inl ⟨hs, rfl⟩) he⟩
  have hpos : 0 < s.src.length := List.length_pos_of_ne_nil hs
  by_cases hr : s.config.cap ≤ s.rx.length
  · refine ⟨_, ?_, .bufferFull ⟨hr, hs⟩⟩
    unfold execPoll
    rw [if_pos hpos, if_pos (Nat.sub_eq_zero_of_le hr : s.room = 0)]
  cases he : s.readError with
  | none =>
    have hi : Ingests s _ := .inr ⟨hs, by omega, he, rfl⟩
    obtain ⟨u, hu, hend⟩ := pollScan_ends dcap _
    exact ⟨u, (execPoll_ingests hi dcap).trans hu, .scans hi hend⟩
  | some k =>
    refine ⟨_, ?_, .readFailure k hs (by omega) he⟩
    unfold execPoll
    rw [if_pos hpos, if_neg (Nat.sub_ne_zero_of_lt (Nat.not_le.1 hr) : s.room ≠ 0)]
    simp only [State.srcRead, he]

/-- Every command ends in a next state (R83, R89). -/
theorem exec_ends (i : Instr) (s : State) : ∃ t, exec i s = .next t := by
  cases i with
  | poll dcap => exact (execPoll_ends dcap s).imp fun _ h => h.1
  | reset => exact ⟨_, rfl⟩
  | classify b0 plen => exact ⟨_, rfl⟩
  | rtcmLen h0 h1 h2 h3 h4 => exact ⟨_, rfl⟩
  | rtcmType h0 h1 h2 h3 h4 => exact ⟨_, rfl⟩

end Sys2Proof.Machine
end

