-- ==== Sys2Proof/Laws/Run.lean ====
section
/-! SUPPORT. What a step can do, and the induction over a run, once. -/

namespace Sys2Proof.Machine

/-! ### The canonical form of DEST -/

theorem State.reset_dest_wf : State.reset.dest.wf := Memory.wf_nil

theorem State.extracted_dest_wf {s : State} (h : s.dest.wf) (i span : Nat) : (s.extracted i span).dest.wf :=
  Memory.wf_write (Memory.wf_writeBytes h _ _) _ _

theorem State.applyMove_dest_wf {s : State} (h : s.dest.wf) (m : Move) : (s.applyMove m).dest.wf := by
  cases m with
  | feed => exact h
  | readError => exact h
  | supplyDest => exact Memory.wf_writeBytes Memory.wf_nil _ _
  | powerOn => exact h

/-! ### One step -/

/-- Everything a step that goes on can have done (R32, R40, R87). -/
theorem step_cases {s t : State} (h : step s = .next t) :
    (s.pending = [] ∧ t = s) ∨
    ∃ rest, (∃ m, s.pending = .move m :: rest ∧ t = (s.withPending rest).applyMove m) ∨
      ∃ w, s.pending = .command w :: rest ∧
        ((∃ i, decode w = .ok i ∧ exec i (s.withPending rest) = .next t) ∨
         (∃ e, decode w = .error e) ∧ t = (s.withPending rest).respond ⟨.illegal, .none, .none, 0⟩) := by
  unfold step State.takeEvent at h
  cases hp : s.pending with
  | nil =>
    rw [hp] at h
    cases h
    exact .inl ⟨rfl, rfl⟩
  | cons e rest =>
    rw [hp] at h
    refine .inr ⟨rest, ?_⟩
    cases e with
    | move m =>
      cases h
      exact .inl ⟨m, rfl, rfl⟩
    | command w =>
      refine .inr ⟨w, rfl, ?_⟩
      cases hd : decode w with
      | ok i =>
        simp only [hd] at h
        exact .inl ⟨i, rfl, h⟩
      | error e =>
        simp only [hd] at h
        cases h
        exact .inr ⟨⟨e, rfl⟩, rfl⟩

/-! ### A run -/

@[simp] theorem runSteps_zero (s : State) : runSteps 0 s = .next s := rfl

/-- The first step of a run that goes on. -/
theorem runSteps_succ {s t : State} (h : step s = .next t) (k : Nat) : runSteps (k + 1) s = runSteps k t := by
  rw [runSteps, h, andThen_next]

/-- A run may be cut anywhere. -/
theorem runSteps_add (m n : Nat) (s : State) : runSteps (m + n) s = andThen (runSteps m s) (runSteps n) := by
  induction m generalizing s with
  | zero => simp
  | succ m ih =>
    rw [Nat.succ_add, runSteps, runSteps]
    cases step s with
    | next t => exact ih t
    | fault r => rfl
    | refused r => rfl

/-- What every step keeps, every run keeps. -/
theorem runSteps_keeps {P : State → Prop} (hstep : ∀ s t, P s → step s = .next t → P t) (k : Nat) :
    ∀ s t : State, P s → runSteps k s = .next t → P t := by
  induction k with
  | zero =>
    intro s t hs hr
    cases hr
    exact hs
  | succ k ih =>
    intro s t hs hr
    obtain ⟨u, hu, hr⟩ := andThen_eq_next hr
    exact ih u t (hstep s u hs hu) hr

/-- The runs that claims speak of are the runs of the machine the host sees. -/
theorem runSteps_eq_run (k : Nat) : ∀ s : State, runSteps k s = Host.Core.run Sys2Proof.core k s := by
  induction k with
  | zero => exact fun _ => rfl
  | succ k ih =>
    intro s
    refine Eq.trans ?_ (Host.Core.run.eq_2 Sys2Proof.core s k).symm
    rw [runSteps]
    have hs : Sys2Proof.core.step s = step s := rfl
    generalize Sys2Proof.core.step s = o at hs ⊢
    subst hs
    cases step s with
    | next t => exact ih t
    | fault r => rfl
    | refused r => rfl

end Sys2Proof.Machine
end

