-- ==== Sys2Proof/Tests/Slice0.lean ====
section
/-! SUPPORT. The model's own tests, each expected result from spec/95_test_vectors.md or by hand from the rule named; and
for every statement with hypotheses a witness that meets all of them, one for each of its clauses. -/

open Sys2Proof Sys2Proof.Machine

namespace Sys2Proof.Tests

/-- A machine of this capacity, under DISCARD, with these bytes in RX and in SRC. -/
def machine (cap : Nat) (rx src : List Byte) : State := { State.reset with config := ⟨cap, .discard⟩, rx := rx, src := src }

/-- The same machine under RETAIN. -/
def retaining (cap : Nat) (rx src : List Byte) : State := { machine cap rx src with config := ⟨cap, .retain⟩ }

/-- The same machine with a read error announced. -/
def failing (k : Nat) (s : State) : State := { s with readError := some k }

/-- The next state of an outcome, if it is one. -/
def stateOf (o : Result) : Option State :=
  match o with
  | .next s => some s
  | .fault _ => none
  | .refused _ => none

/-- The shortest NMEA line, `$` CR LF (V3). -/
abbrev shortLine : List Byte := [0x24, 0x0D, 0x0A]

/-- A line that fills a buffer of the least capacity, 6. -/
abbrev fullLine : List Byte := [0x24, 0x61, 0x0D, 0x61, 0x0D, 0x0A]

/-- The valid frame of payload length 0 (V12). -/
abbrev emptyFrame : List Byte := [0xD3, 0x00, 0x00, 0x47, 0xEA, 0x4B]

/-- A frame of payload length 0 whose trailer is wrong in its last bit. -/
abbrev wrongFrame : List Byte := [0xD3, 0x00, 0x00, 0x47, 0xEA, 0x4A]

/-- The first six bytes of a frame whose lowest reserved bit is set (V17). -/
abbrev reservedFrame : List Byte := [0xD3, 0x04, 0x00, 0x00, 0x00, 0x00]

/-! ### WellFormed refuses an operand out of its range, one line for each check (R60) -/

theorem test_poll_dcap_out_of_range : (SourceLine.poll 65536).wellFormed = false := by decide
theorem test_classify_b0_out_of_range : (SourceLine.classify 256 0).wellFormed = false := by decide
theorem test_classify_plen_out_of_range : (SourceLine.classify 0 65536).wellFormed = false := by decide
theorem test_rtcmLen_h0_out_of_range : (SourceLine.rtcmLen 256 0 0 0 0).wellFormed = false := by decide
theorem test_rtcmLen_h1_out_of_range : (SourceLine.rtcmLen 0 256 0 0 0).wellFormed = false := by decide
theorem test_rtcmLen_h2_out_of_range : (SourceLine.rtcmLen 0 0 256 0 0).wellFormed = false := by decide
theorem test_rtcmLen_h3_out_of_range : (SourceLine.rtcmLen 0 0 0 256 0).wellFormed = false := by decide
theorem test_rtcmLen_h4_out_of_range : (SourceLine.rtcmLen 0 0 0 0 256).wellFormed = false := by decide
theorem test_rtcmType_h0_out_of_range : (SourceLine.rtcmType 256 0 0 0 0).wellFormed = false := by decide
theorem test_rtcmType_h1_out_of_range : (SourceLine.rtcmType 0 256 0 0 0).wellFormed = false := by decide
theorem test_rtcmType_h2_out_of_range : (SourceLine.rtcmType 0 0 256 0 0).wellFormed = false := by decide
theorem test_rtcmType_h3_out_of_range : (SourceLine.rtcmType 0 0 0 256 0).wellFormed = false := by decide
theorem test_rtcmType_h4_out_of_range : (SourceLine.rtcmType 0 0 0 0 256).wellFormed = false := by decide
theorem test_word64_out_of_range : (SourceLine.word64 (2 ^ 64)).wellFormed = false := by decide
theorem test_greatest_operands_in_range :
    ∀ l ∈ [SourceLine.poll 65535, .reset, .classify 255 65535, .rtcmLen 255 255 255 255 255,
      .rtcmType 255 255 255 255 255, .word64 (2 ^ 64 - 1)], l.wellFormed = true := by decide

/-! ### Decoding, from words written out from 30_encoding.md and 95_test_vectors.md -/

/-- Format P: OP 1 at [3:0], DCAP 64 = 0x0040 at [23:8] (R47). -/
theorem test_decode_poll : decodeTableWord 64 0x0000000000004001 = some (.poll 64) := by decide
/-- DCAP at its greatest: [23:8] all ones and no other bit (R47). -/
theorem test_decode_poll_greatest : decodeTableWord 64 0x0000000000FFFF01 = some (.poll 0xFFFF) := by decide
/-- Format N (R48). -/
theorem test_decode_reset : decodeTableWord 64 0x0000000000000002 = some .reset := by decide
/-- Format C: OP 3, B0 0x24 at [15:8], PLEN 32 = 0x0020 at [31:16] (R49, 95 2.3). -/
theorem test_decode_classify : decodeTableWord 64 0x0000000000202403 = some (.classify 0x24 32) := by decide
/-- Format H: OP 4, H0 to H4 at [15:8] to [47:40] (R50, 95 2.1). -/
theorem test_decode_rtcmLen :
    decodeTableWord 64 0x000002010500D304 = some (.rtcmLen 0xD3 0x00 0x05 0x01 0x02) := by decide
/-- Format H with OP 5 (95 2.1). -/
theorem test_decode_rtcmType :
    decodeTableWord 64 0x0000D73E1300D305 = some (.rtcmType 0xD3 0x00 0x13 0x3E 0xD7) := by decide
/-- The lowest and the highest must-be-zero bit of each format, and the reserved opcodes next to the five (R51). -/
theorem test_decode_illegal :
    [0x0000000000000000, 0x0000000000000006, 0x000000000000000F, 0x0000000000000012, 0x8000000000000002,
      0x0000000000004011, 0x0000000001004001, 0x8000000000004001, 0x0000000100004001, 0x0000000000202413,
      0x0000000100202403, 0x8000000000202403, 0x000002010500D314, 0x000102010500D304, 0x8000D73E1300D305,
      0xFFFFFFFFFFFFFFFF].all (fun w => decodeTableWord 64 w == none) = true := by decide +kernel
theorem test_encode_words :
    encode (.poll 64) = 0x0000000000004001#64 ∧ encode .reset = 0x0000000000000002#64 ∧
    encode (.classify 0xD3 11) = 0x00000000000BD303#64 ∧
    encode (.rtcmLen 0xD3 0xFF 0xFF 0x00 0x00) = 0x00000000FFFFD304#64 ∧
    encode (.rtcmType 0x00 0x00 0x00 0xFF 0xF0) = 0x0000F0FF00000005#64 := by decide

/-! ### The assembler (R60, R61) -/

theorem test_read_poll : readLine " POLL 0x40 ".toList = some (.source (.poll 64)) := by decide
theorem test_read_rtcmLen :
    readLine "RTCM_LEN 0xD3,0x00,0x05,0x01,0x02".toList = some (.source (.rtcmLen 0xD3 0 5 1 2)) := by decide
theorem test_read_word64 :
    (readLine ".word64 0x0000000100004001".toList).bind ScriptLine.events = some [.command 0x0000000100004001#64] := by
  decide
theorem test_read_feed : readLine "FEED \"$A\\r\\n\"".toList = some (.feed [0x24, 0x41, 0x0D, 0x0A]) := by decide
theorem test_read_directives :
    readLine "READERR 2".toList = some (.readError 2) ∧ readLine "EXPECT 0x00000002".toList = some .expect := by decide
theorem test_read_operand_out_of_range :
    (readLine "POLL 65536".toList).bind ScriptLine.events = none ∧ readLine "POLL".toList = none := by decide

/-! ### One step of each command -/

/-- V10: the frame of payload length 5. -/
theorem test_poll_frame :
    stateOf (step ((machine 1024 [] [0xD3, 0x00, 0x05, 0x01, 0x02, 0x03, 0x04, 0x05, 0xE4, 0xD2, 0xF3]).withFetchWord 64
      0x0000000000000C01)) =
    some { machine 1024 [] [] with
      rsp := 0x00000B21
      dest := [(0, 0xD3), (1, 0x00), (2, 0x05), (3, 0x01), (4, 0x02), (5, 0x03), (6, 0x04), (7, 0x05), (8, 0xE4),
        (9, 0xD2), (10, 0xF3), (11, 0x00)] } := by decide +kernel
/-- V22: a stray `$` before a frame takes the frame's CR LF for its own. -/
theorem test_poll_stray_dollar :
    stateOf (exec (.poll 64) (machine 1024 [] [0x24, 0xD3, 0x00, 0x03, 0x24, 0x0D, 0x0A, 0x3B, 0xEF, 0x1B])) =
    some { machine 1024 [0x3B, 0xEF, 0x1B] [] with
      rsp := 0x00000711
      dest := [(0, 0x24), (1, 0xD3), (2, 0x00), (3, 0x03), (4, 0x24), (5, 0x0D), (6, 0x0A), (7, 0x00)] } := by decide
/-- 95 2.3: RESET does not drain SRC. -/
theorem test_reset_keeps_source :
    stateOf (exec .reset (machine 1024 [0x61, 0x62, 0x63, 0x64, 0x65] [0x78, 0x79])) =
    some (machine 1024 [] [0x78, 0x79]) := by decide
/-- 95 2.3: a first byte that is no marker, and the empty packet (D18). -/
theorem test_classify_unknown :
    responseOf (exec (.classify 0x41 5) (machine 8 [0x24] [0x61])) = some 0x00000030 ∧
    responseOf (exec (.classify 0x24 0) (machine 8 [0x24] [0x61])) = some 0x00000030 := by decide
/-- 95 2.1: the reserved bits do not count. -/
theorem test_rtcmLen_ignores_reserved_bits :
    responseOf (step ((machine 8 [] []).withFetchWord 64 0x00000000FFFFD304)) = some 0x0003FF00 := by decide
/-- 95 2.1: all ones in the type, and no other bit of header byte 4. -/
theorem test_rtcmType_greatest :
    responseOf (step ((machine 8 [] []).withFetchWord 64 0x0000F0FF00000005)) = some 0x000FFF00 := by decide
/-- 95 2.3: a RESET word with CMD[4] set resets nothing. -/
theorem test_illegal_resets_nothing :
    stateOf (step ((machine 8 [0x61, 0x62, 0x63] [0x64]).withFetchWord 64 0x0000000000000012)) =
    some { machine 8 [0x61, 0x62, 0x63] [0x64] with rsp := 0x0000000F } := by decide
/-- 95 1, G1 and G2: the check value, and the trailer of the sample frame. -/
theorem test_crc24_check_value :
    crc24 [0x31, 0x32, 0x33, 0x34, 0x35, 0x36, 0x37, 0x38, 0x39] = 0xCDE703 ∧
    crc24 [0xD3, 0x00, 0x13, 0x3E, 0xD7, 0xD3, 0x02, 0x02, 0x98, 0x0E, 0xDE, 0xEF, 0x34, 0xB4, 0xBD, 0x62, 0xAC, 0x09, 0x41,
      0x98, 0x6F, 0x33] = 0x360B98 := by decide +kernel

/-! ### Witnesses: the hypotheses of each statement, clause by clause, can be met -/

theorem witness_StepRunsDecodedCommand_command :
    ∃ (s : State) (w : CommandWord) (rest : List Event) (i : Instr),
      s.pending = .command w :: rest ∧ decode w = .ok i :=
  ⟨(machine 8 [] []).issue 0x0000000000FFFF01, 0x0000000000FFFF01, [], .poll 0xFFFF, rfl, rfl⟩
theorem witness_StepRunsDecodedCommand_fetch : ∃ nbits w i, decodeTableWord nbits w = some i :=
  ⟨64, 0x0000D73E1300D305, .rtcmType 0xD3 0x00 0x13 0x3E 0xD7, by decide⟩

/-- The witnesses of StepMakesMoveOrWaits: each state's pending list is the one its clause asks for. -/
theorem witness_StepMakesMoveOrWaits :
    (∃ s : State, s.pending = []) ∧ (∃ s : State, s.pending = .move (.feed []) :: []) ∧
    (∃ s : State, s.pending = .move (.readError 0) :: []) ∧
    (∃ s : State, s.pending = .move (.supplyDest [0x00, 0x01]) :: []) ∧ (∃ s : State, s.pending = .move .powerOn :: []) :=
  ⟨⟨State.reset, rfl⟩, ⟨State.reset.withPending _, rfl⟩, ⟨State.reset.withPending _, rfl⟩,
    ⟨State.reset.withPending _, rfl⟩, ⟨State.reset.withPending _, rfl⟩⟩

theorem witness_IllegalWordAnswersIllegal :
    ∃ (s : State) (w : CommandWord) (rest : List Event), s.pending = .command w :: rest ∧
      w &&& 0xFFFFFFFFFF0000FF#64 ≠ 0x0000000000000001#64 ∧ w &&& 0xFFFFFFFFFFFFFFFF#64 ≠ 0x0000000000000002#64 ∧
      w &&& 0xFFFFFFFF000000FF#64 ≠ 0x0000000000000003#64 ∧ w &&& 0xFFFF0000000000FF#64 ≠ 0x0000000000000004#64 ∧
      w &&& 0xFFFF0000000000FF#64 ≠ 0x0000000000000005#64 :=
  ⟨State.reset.issue 0x0000000000000012, 0x0000000000000012, [], rfl, by decide⟩

theorem witness_EncodeOfDecodeIsTheWord : ∃ (w : CommandWord) (i : Instr), decode w = .ok i :=
  ⟨0x0000FFFFFFFFFF04, .rtcmLen 0xFF 0xFF 0xFF 0xFF 0xFF, rfl⟩

theorem witness_OpcodeTableDecoding_accepted :
    ∃ (w : CommandWord), ∃ r ∈ opcodeTable, ∃ r' ∈ opcodeTable, w &&& r.mask = r.pattern ∧ w &&& r'.mask = r'.pattern :=
  ⟨0x0000000000000002, ⟨.reset, _, _⟩, .tail _ (.head _), ⟨.reset, _, _⟩, .tail _ (.head _), by decide⟩
theorem witness_OpcodeTableDecoding_illegal :
    ∃ (s : State) (w : CommandWord) (rest : List Event) (e : DecodeError),
      s.pending = .command w :: rest ∧ decode w = .error e :=
  ⟨State.reset.issue 0, 0, [], .reservedOpcode, rfl, rfl⟩

theorem witness_AssemblerWritesTheFormats :
    ∃ (l : SourceLine) (w : CommandWord) (i : Instr), commandOf l = some i ∧ assemble l = some w :=
  ⟨.classify 255 65535, 0x00000000FFFFFF03, .classify 0xFF 0xFFFF, by decide, by decide⟩

theorem witness_RtcmLenAnswersPayloadLength : ∃ w h0 h1 h2 h3 h4, decode w = .ok (.rtcmLen h0 h1 h2 h3 h4) :=
  ⟨0x000002010500D304, 0xD3, 0x00, 0x05, 0x01, 0x02, rfl⟩
theorem witness_RtcmTypeAnswersMessageType : ∃ w h0 h1 h2 h3 h4, decode w = .ok (.rtcmType h0 h1 h2 h3 h4) :=
  ⟨0x0000D73E1300D305, 0xD3, 0x00, 0x13, 0x3E, 0xD7, rfl⟩

theorem witness_ClassifyAnswersClassOfFirstByte_decode : ∃ w b0 plen, decode w = .ok (.classify b0 plen) :=
  ⟨0x0000000000202403, 0x24, 32, rfl⟩
theorem witness_ClassifyAnswersClassOfFirstByte_extracted :
    ∃ (s : State) (dcap : BitVec 16) (t : State),
      s.dest.wf ∧ exec (.poll dcap) s = .next t ∧ rspStatus t.rsp = 0x1#4 :=
  ⟨machine 6 [] shortLine, 4, _, by decide, rfl, by decide⟩

theorem witness_ResetDiscardsBufferedBytes_twice : ∃ s t : State, exec .reset s = .next t := ⟨machine 6 [0x24] [], _, rfl⟩
theorem witness_ResetDiscardsBufferedBytes_example :
    ∃ s t : State, s.config.cap = 8 ∧ s.rx.length = 8 ∧ s.src = [0x69#8, 0x6A#8] ∧ s.readError = none ∧
      exec .reset s = .next t :=
  ⟨machine 8 [0x61, 0x62, 0x63, 0x64, 0x65, 0x66, 0x67, 0x68] [0x69, 0x6A], _, by decide, by decide, by decide, by decide,
    rfl⟩

theorem witness_OtherCommandsIgnoreTheBuffer : ∃ i : Instr, ∀ dcap, i ≠ .poll dcap := ⟨.classify 0x24 1, by simp⟩

theorem witness_PollBufferFull_waiting : ∃ s : State, s.src ≠ [] ∧ s.config.cap ≤ s.rx.length :=
  ⟨machine 6 emptyFrame [0x00], by decide⟩
theorem witness_PollBufferFull_nothing_waiting : ∃ s : State, s.src = [] := ⟨machine 6 emptyFrame [], by decide⟩

theorem witness_PollReadFailure_answer :
    ∃ (s : State) (k : Nat), s.src ≠ [] ∧ s.rx.length < s.config.cap ∧ s.readError = some k :=
  ⟨failing 9 (machine 6 [0x24] [0x0D, 0x0A]), 9, by decide⟩
theorem witness_PollReadFailure_choice :
    ∃ (s : State) (m : Nat), s.src ≠ [] ∧ s.rx.length < s.config.cap ∧ m ≤ min s.src.length (s.config.cap - s.rx.length) :=
  ⟨machine 6 [0x24, 0x24, 0x24, 0x24, 0x24] [0x0D, 0x0A], 1, by decide⟩

theorem witness_PollIngestsWhatThereIsRoomFor_nothing : ∃ s : State, s.src = [] := ⟨machine 6 [0x24] [], by decide⟩
theorem witness_PollIngestsWhatThereIsRoomFor_some :
    ∃ (s : State) (n : Nat), s.src ≠ [] ∧ s.rx.length < s.config.cap ∧ s.readError = none ∧
      n = min s.src.length (s.config.cap - s.rx.length) :=
  ⟨machine 6 [0x61, 0x62, 0x63, 0x64, 0x65] shortLine, 1, by decide⟩

/-- Both ways for step 1 to go on: nothing waits; and bytes wait, of which there is room for one only. -/
theorem witness_ingests_nothing (rx : List Byte) : Ingests (machine 8 rx []) (machine 8 rx []) := .inl ⟨rfl, rfl⟩
theorem witness_ingests_some :
    Ingests (machine 6 [0x24, 0x61, 0x61, 0x61, 0x0D] [0x0A, 0x24]) (machine 6 [0x24, 0x61, 0x61, 0x61, 0x0D, 0x0A] [0x24]) :=
  .inr (by decide)

theorem witness_FirstMarkerIsTheCandidate_nmea : ∃ (s t : State) (i : Nat), Ingests s t ∧ NmeaAt t.rx i :=
  ⟨_, _, 2, witness_ingests_nothing [0x61, 0x0D, 0x24, 0xD3], by decide⟩
theorem witness_FirstMarkerIsTheCandidate_rtcm : ∃ (s t : State) (i : Nat), Ingests s t ∧ RtcmAt t.rx i :=
  ⟨_, _, 0, witness_ingests_nothing [0xD3, 0x24], by decide⟩

theorem witness_PollWithoutMarkerKeepsBytes : ∃ s t : State, Ingests s t ∧ MarkerFree t.rx :=
  ⟨_, _, witness_ingests_nothing [0x23, 0x25, 0xD2, 0xD4], by decide⟩

theorem witness_PollNmeaCandidate_waits :
    ∃ (s t : State) (i : Nat), Ingests s t ∧ NmeaAt t.rx i ∧ NoCrLfAfter t.rx i :=
  ⟨_, _, 2, witness_ingests_nothing [0x0D, 0x0A, 0x24, 0x0A, 0x0D], by decide⟩
theorem witness_PollNmeaCandidate_shortest :
    ∃ (s t : State) (i j : Nat), Ingests s t ∧ NmeaAt t.rx i ∧ FirstCrLfAfter t.rx i j :=
  ⟨_, _, 0, 1, witness_ingests_nothing shortLine, by decide⟩

theorem witness_PollRtcmCandidateWaits_five :
    ∃ (s t : State) (i : Nat), Ingests s t ∧ RtcmAt t.rx i ∧ t.rx.length - i < 6 :=
  ⟨_, _, 1, witness_ingests_nothing [0x61, 0xD3, 0x04, 0x00, 0x00, 0x00], by decide⟩
theorem witness_PollRtcmCandidateWaits_one_missing :
    ∃ (s t : State) (i : Nat) (h1 h2 : Byte), Ingests s t ∧ RtcmAt t.rx i ∧ HeaderAt t.rx i h1 h2 ∧ h1.toNat < 4 ∧
      t.rx.length - i < 6 + lengthOf h1 h2 :=
  ⟨_, _, 0, 0x00, 0x01, witness_ingests_nothing [0xD3, 0x00, 0x01, 0x00, 0x0A, 0x18], by decide⟩

/-- The frame of payload length 0 agrees with its trailer; with the last bit wrong it does not. -/
theorem emptyFrame_crcAgrees : CrcAgrees emptyFrame 0 0 := ⟨0x47, 0xEA, 0x4B, by decide +kernel⟩
theorem wrongFrame_not_crcAgrees : ¬ CrcAgrees wrongFrame 0 0 := by
  rintro ⟨c2, c1, c0, h2, h1, h0, h⟩
  cases (show c2 = 0x47#8 from (Option.some.inj h2).symm)
  cases (show c1 = 0xEA#8 from (Option.some.inj h1).symm)
  cases (show c0 = 0x4A#8 from (Option.some.inj h0).symm)
  exact absurd h (by decide +kernel)

theorem witness_PollRtcmCandidateChecks_reserved :
    ∃ (s t : State) (i : Nat) (h1 h2 : Byte), Ingests s t ∧ RtcmAt t.rx i ∧ HeaderAt t.rx i h1 h2 ∧ 4 ≤ h1.toNat :=
  ⟨_, _, 0, 0x04, 0x00, witness_ingests_nothing reservedFrame, by decide⟩
theorem witness_PollRtcmCandidateChecks_mismatch :
    ∃ (s t : State) (i : Nat) (h1 h2 : Byte), Ingests s t ∧ RtcmAt t.rx i ∧ HeaderAt t.rx i h1 h2 ∧ h1.toNat < 4 ∧
      i + 6 + lengthOf h1 h2 ≤ t.rx.length ∧ ¬ CrcAgrees t.rx i (lengthOf h1 h2) :=
  ⟨_, _, 0, 0x00, 0x00, witness_ingests_nothing wrongFrame, by decide, by decide, by decide, by decide,
    wrongFrame_not_crcAgrees⟩
theorem witness_PollRtcmCandidateChecks_valid :
    ∃ (s t : State) (i : Nat) (h1 h2 : Byte), Ingests s t ∧ RtcmAt t.rx i ∧ HeaderAt t.rx i h1 h2 ∧ h1.toNat < 4 ∧
      i + 6 + lengthOf h1 h2 ≤ t.rx.length ∧ CrcAgrees t.rx i (lengthOf h1 h2) :=
  ⟨_, _, 0, 0x00, 0x00, witness_ingests_nothing emptyFrame, by decide, by decide, by decide, by decide,
    emptyFrame_crcAgrees⟩

/-- Both reasons a candidate is proven invalid, and both classes of packet. -/
theorem reservedFrame_provenInvalid : ProvenInvalidAt reservedFrame 0 .reservedBits :=
  ⟨by decide, 0x04, 0x00, by decide, .inl (by decide)⟩
theorem wrongFrame_provenInvalid : ProvenInvalidAt wrongFrame 0 .crcMismatch :=
  ⟨by decide, 0x00, 0x00, by decide, .inr ⟨rfl, by decide, by decide, wrongFrame_not_crcAgrees⟩⟩
theorem shortLine_packet : PacketAt shortLine 0 3 .nmea := .inl ⟨rfl, by decide, 1, by decide, rfl⟩
theorem emptyFrame_packet : PacketAt emptyFrame 0 6 .rtcm :=
  .inr ⟨rfl, 0, ⟨by decide, 0x00, 0x00, by decide, by decide, by decide, by decide, emptyFrame_crcAgrees⟩, rfl⟩

theorem witness_PollRejectsByPolicy_discard :
    ∃ (s t : State) (i : Nat) (d : Diag), Ingests s t ∧ ProvenInvalidAt t.rx i d ∧ t.config.badFramePolicy = .discard :=
  ⟨_, _, 0, .crcMismatch, witness_ingests_nothing wrongFrame, wrongFrame_provenInvalid, rfl⟩
theorem witness_PollRejectsByPolicy_retain :
    ∃ (s t : State) (i : Nat) (d : Diag), Ingests s t ∧ ProvenInvalidAt t.rx i d ∧ t.config.badFramePolicy = .retain :=
  ⟨retaining 8 reservedFrame [], retaining 8 reservedFrame [], 0, .reservedBits, .inl ⟨rfl, rfl⟩,
    reservedFrame_provenInvalid, rfl⟩

theorem witness_PollBufferTooSmall :
    ∃ (s t : State) (dcap : BitVec 16) (i span : Nat) (cls : PacketClass),
      s.Inv ∧ Ingests s t ∧ PacketAt t.rx i span cls ∧ dcap.toNat < span + 1 :=
  ⟨_, _, 3, 0, 3, .nmea, by decide, witness_ingests_nothing shortLine, shortLine_packet, by decide⟩
theorem witness_PollExtractsPacket :
    ∃ (s t : State) (dcap : BitVec 16) (i span : Nat) (cls : PacketClass),
      s.Inv ∧ Ingests s t ∧ PacketAt t.rx i span cls ∧ span + 1 ≤ dcap.toNat :=
  ⟨_, _, 7, 0, 6, .rtcm, by decide, witness_ingests_nothing emptyFrame, emptyFrame_packet, by decide⟩

/-- PollFrame speaks of every STATUS that POLL answers: each is met. -/
theorem witness_PollFrame :
    (∃ s t : State, exec (.poll 4) s = .next t ∧ rspStatus t.rsp = 0x1#4) ∧
    (∃ s t : State, exec (.poll 4) s = .next t ∧ rspStatus t.rsp = 0x2#4) ∧
    (∃ s t : State, exec (.poll 4) s = .next t ∧ rspStatus t.rsp = 0x3#4) ∧
    (∃ s t : State, exec (.poll 3) s = .next t ∧ rspStatus t.rsp = 0x4#4) ∧
    (∃ s t : State, exec (.poll 4) s = .next t ∧ rspStatus t.rsp = 0x5#4) :=
  ⟨⟨machine 6 [] shortLine, _, rfl, by decide⟩, ⟨machine 6 [] [0x24], _, rfl, by decide⟩,
    ⟨machine 6 emptyFrame [0x24], _, rfl, by decide⟩, ⟨machine 6 [] shortLine, _, rfl, by decide⟩,
    ⟨failing 1 (machine 6 [] shortLine), _, rfl, by decide⟩⟩

theorem witness_DestWrittenOnlyByPacket_written :
    ∃ (i : Instr) (s t : State), s.Inv ∧ exec i s = .next t ∧ rspStatus t.rsp = 0x1#4 :=
  ⟨.poll 7, machine 6 fullLine [], _, by decide, rfl, by decide⟩
theorem witness_DestWrittenOnlyByPacket_unwritten :
    ∃ (i : Instr) (s t : State), s.Inv ∧ exec i s = .next t ∧ rspStatus t.rsp ≠ 0x1#4 :=
  ⟨.poll 6, machine 6 fullLine [], _, by decide, rfl, by decide⟩

theorem witness_ResponseFieldsByCommand :
    (∃ (s : State) (dcap : BitVec 16) (t : State), s.Inv ∧ exec (.poll dcap) s = .next t) ∧
    (∃ s t : State, exec .reset s = .next t) ∧ (∃ b0 plen, ∃ s t : State, exec (.classify b0 plen) s = .next t) ∧
    (∃ h0 h1 h2 h3 h4, ∃ s t : State, exec (.rtcmLen h0 h1 h2 h3 h4) s = .next t) ∧
    (∃ h0 h1 h2 h3 h4, ∃ s t : State, exec (.rtcmType h0 h1 h2 h3 h4) s = .next t) ∧
    (∃ s t : State, execIllegal s = .next t) :=
  ⟨⟨machine 6 shortLine [], 4, _, by decide, rfl⟩, ⟨State.reset, _, rfl⟩, ⟨0x24, 0, State.reset, _, rfl⟩,
    ⟨0xD3, 0xFF, 0xFF, 0, 0, State.reset, _, rfl⟩, ⟨0, 0, 0, 0xFF, 0xF0, State.reset, _, rfl⟩, ⟨State.reset, _, rfl⟩⟩

theorem witness_NoReservedOutput :
    ∃ (s t : State) (w : CommandWord) (rest : List Event), s.pending = .command w :: rest ∧ step s = .next t :=
  ⟨State.reset.issue 0x000000000000000F, _, 0x000000000000000F, [], rfl, rfl⟩

theorem witness_NoByteIsLost_packet :
    ∃ (i : Instr) (s t : State), s.dest.wf ∧ exec i s = .next t ∧ rspStatus t.rsp = 0x1#4 :=
  ⟨.poll 4, machine 6 [] ([0x61] ++ shortLine), _, by decide, rfl, by decide⟩
theorem witness_NoByteIsLost_reject :
    ∃ (i : Instr) (s t : State), s.dest.wf ∧ exec i s = .next t ∧ rspDiag t.rsp ≠ 0 :=
  ⟨.poll 4, machine 6 [] reservedFrame, _, by decide, rfl, by decide⟩

theorem witness_BufferTooSmallIsRetrySafe_empty :
    ∃ (s : State) (dcap : BitVec 16) (t : State), s.Inv ∧ exec (.poll dcap) s = .next t ∧ rspStatus t.rsp = 0x4#4 ∧
      t.src = [] :=
  ⟨machine 6 fullLine [], 6, _, by decide, rfl, by decide, by decide⟩
theorem witness_BufferTooSmallIsRetrySafe_room :
    ∃ (s : State) (dcap : BitVec 16) (t : State), s.Inv ∧ exec (.poll dcap) s = .next t ∧ rspStatus t.rsp = 0x4#4 ∧
      t.rx.length < t.config.cap ∧ t.readError = none :=
  ⟨machine 7 fullLine [], 0, _, by decide, rfl, by decide, by decide, by decide⟩
/-- DATA is 6, so DCAP 6 is the last that is too small and 7 the first that is not. -/
theorem witness_BufferTooSmallIsRetrySafe_bounds :
    ∃ (s : State) (dcap : BitVec 16) (t : State), s.Inv ∧ exec (.poll dcap) s = .next t ∧ rspStatus t.rsp = 0x4#4 ∧
      t.src = [] ∧ (6#16).toNat < (rspData t.rsp).toNat + 1 ∧ (rspData t.rsp).toNat + 1 ≤ (7#16).toNat :=
  ⟨machine 6 [] fullLine, 5, _, by decide, rfl, by decide, by decide, by decide⟩

theorem witness_OverlongFrameNeverCompletes :
    ∃ (s t : State) (dcap : BitVec 16) (i : Nat) (h1 h2 : Byte), s.Inv ∧ RtcmAt s.rx i ∧ HeaderAt s.rx i h1 h2 ∧
      h1.toNat < 4 ∧ s.config.cap - i < 6 + lengthOf h1 h2 ∧ exec (.poll dcap) s = .next t :=
  ⟨machine 6 [0xD3, 0x00, 0x01, 0x00, 0x0A, 0x18] [], _, 64, 0, 0x00, 0x01, by decide, by decide, by decide, by decide,
    by decide, rfl⟩

theorem witness_NothingReadsDest : ∃ s t : State, step s = .next t :=
  ⟨(machine 6 [] shortLine).issue 0x0000000000004001, _, rfl⟩

theorem witness_Crc24IsLinear : ∃ s t : List Byte, s.length = t.length := ⟨[0x01], [0x80], rfl⟩

theorem witness_Crc24DetectsSingleBitFlip :
    ∃ (body : List Byte) (c2 c1 c0 : Byte) (k j : Nat) (b : Byte) (body' : List Byte) (d2 d1 d0 : Byte),
      (crc24 body).toNat = bigEndian24 c2 c1 c0 ∧ j < 8 ∧ (body ++ [c2, c1, c0])[k]? = some b ∧
      body'.length = body.length ∧
      body' ++ [d2, d1, d0] = (body ++ [c2, c1, c0]).set k (b ^^^ BitVec.ofNat 8 (2 ^ j)) :=
  ⟨[0xD3, 0x00, 0x00], 0x47, 0xEA, 0x4B, 5, 7, 0x4B, [0xD3, 0x00, 0x00], 0x47, 0xEA, 0xCB, by decide +kernel⟩

theorem witness_BufferManagerPrimitives :
    (∃ (s : State) (bs : List Byte), s.used + bs.length ≤ s.config.cap) ∧
    (∃ (s : State) (bs : List Byte), s.config.cap < s.used + bs.length) ∧
    (∃ (s : State) (k : Nat), k ≤ s.used) ∧ (∃ (s : State) (k : Nat), s.used < k) :=
  ⟨⟨machine 6 shortLine [], shortLine, by decide⟩, ⟨machine 6 [0x61] [], emptyFrame, by decide⟩,
    ⟨machine 6 shortLine [], 3, by decide⟩, ⟨machine 6 shortLine [], 4, by decide⟩⟩

theorem witness_UsedRegisterHoldsFillLevel_full : ∃ s : State, s.Inv ∧ s.rx.length = s.config.cap :=
  ⟨machine 6 emptyFrame [], by decide⟩
theorem witness_UsedRegisterHoldsFillLevel_width : ∃ (c : Config) (n : Nat), c.Legal ∧ c.cap < 2 ^ n :=
  ⟨⟨65535, .discard⟩, 16, by decide⟩

theorem witness_StepKeepsInvariant : ∃ s t : State, s.Inv ∧ step s = .next t :=
  ⟨(machine 6 fullLine []).issue 0x0000000000004001, _, by decide, rfl⟩

theorem witness_EveryRunKeepsInvariant : ∃ c : Config, c.Legal := ⟨⟨6, .retain⟩, by decide⟩

theorem witness_BufferFullLastsUntilReset :
    ∃ (k : Nat) (s t : State), s.Stuck ∧ NoReset s.pending ∧ runSteps k s = .next t :=
  ⟨2, (machine 6 emptyFrame [0x61]).withPending [.move (.feed [0x62]), .command 0x0000000000004001], _, by decide,
    by simp [NoReset, State.withPending, isResetWord], rfl⟩

theorem witness_RetainBlocksUntilReset :
    ∃ (k : Nat) (s t : State) (i : Nat) (d : Diag), s.config.badFramePolicy = .retain ∧ ProvenInvalidAt s.rx i d ∧
      NoReset s.pending ∧ runSteps k s = .next t :=
  ⟨2, (retaining 7 reservedFrame []).withPending [.move (.feed [0x62]), .command 0x0000000000004001], _, 0, .reservedBits,
    rfl, reservedFrame_provenInvalid, by simp [NoReset, State.withPending, isResetWord], rfl⟩

theorem witness_ByteAtATimeEqualsWhole :
    ∃ (s : State) (sentence : List Byte) (dcap : BitVec 16), s.Inv ∧ s.rx = [] ∧ s.src = [] ∧ s.readError = none ∧
      sentence.length ≤ s.config.cap ∧ sentence[0]? = some 0x24#8 ∧
      FirstCrLfAfter sentence 0 (sentence.length - 2) ∧ sentence.length + 1 ≤ dcap.toNat :=
  ⟨machine 6 [] [], [0x24, 0x0D, 0x0D, 0x61, 0x0D, 0x0A], 7, by decide⟩

theorem witness_MarkerFreeSourceExhaustsBuffer :
    ∃ (s : State) (chunks : List (List Byte)), s.Inv ∧ s.readError = none ∧ MarkerFree s.rx ∧ MarkerFree s.src ∧
      (∀ c ∈ chunks, c ≠ [] ∧ MarkerFree c) ∧ chunks.length = s.config.cap + 1 :=
  ⟨machine 6 [] [], List.replicate 7 [0x61], by decide⟩

/-- The `$` comes in with the last chunk that RX has room for, after marker-free bytes. -/
theorem witness_UnterminatedLineExhaustsBuffer :
    ∃ (s : State) (chunks : List (List Byte)) (i : Nat), s.Inv ∧ s.readError = none ∧
      NmeaAt (s.rx ++ s.src ++ chunks.flatten) i ∧ NoCrLfAfter (s.rx ++ s.src ++ chunks.flatten) i ∧
      (∀ c ∈ chunks, c ≠ []) ∧ chunks.length = s.config.cap + 1 :=
  ⟨machine 6 [] [], [[0x0D], [0x0A], [0x0D], [0x0A], [0x61], [0x24], [0x0A]], 5, by decide⟩

theorem witness_InstancesAreIndependent : ∃ k j : Nat, k ≠ j := ⟨0, 1, by decide⟩
theorem witness_InstancesAreIndependent_own_step :
    ∃ (k j : Nat) (bank : Bank) (s t : State), k ≠ j ∧ bank[k]? = some s ∧ step s = .next t :=
  ⟨1, 0, [machine 6 [] [], (machine 6 [] shortLine).issue 0x0000000000000401], _, _, by decide, rfl, rfl⟩

end Sys2Proof.Tests
end

section
/-! PROOFS. The invariant of the machine: the width of USED, the state after power-on, and what every step keeps. -/

namespace Sys2Proof.Machine

/-! ### The register USED -/

/-- UW is the least width that holds CAP (R8). -/
theorem usedWidth_le_iff (c : Config) (n : Nat) : c.usedWidth ≤ n ↔ c.cap < 2 ^ n :=
  Nat.clog_le_iff_le_pow (by decide)

theorem cap_lt_two_pow_usedWidth (c : Config) : c.cap < 2 ^ c.usedWidth := (usedWidth_le_iff c _).1 le_rfl

/-- A fill level that fits RX fits the register of UW bits (R8, R15). -/
theorem toNat_usedRegister {s : State} (h : s.rx.length ≤ s.config.cap) : s.usedRegister.toNat = s.rx.length := by
  rw [State.usedRegister, BitVec.toNat_ofNat, Nat.mod_eq_of_lt (h.trans_lt (cap_lt_two_pow_usedWidth _))]

/-- 1024 lies from `2 ^ 10` to below `2 ^ 11`. -/
theorem usedWidth_1024 (p : BadFramePolicy) : Config.usedWidth ⟨1024, p⟩ = 11 := by
  apply le_antisymm
  · rw [usedWidth_le_iff]
    norm_num
  · rw [Nat.succ_le_iff, ← not_le, usedWidth_le_iff]
    norm_num

/-- Settles O41: UW is `clog 2 (CAP + 1)`, so a width holds CAP exactly when it is at least UW. -/
theorem usedRegisterHoldsFillLevel : Obligations.UsedRegisterHoldsFillLevel := by
  refine ⟨fun s ⟨_, hused, _, _⟩ => ?_, fun c _ => ?_, usedWidth_1024 _⟩
  · rw [toNat_usedRegister hused]
    exact ⟨rfl, hused⟩
  · exact ⟨cap_lt_two_pow_usedWidth c, fun n => (usedWidth_le_iff c n).2⟩

/-! ### The state after power-on -/

/-- Settles O42: RX and DEST are empty, CAP is its default, and RSP is 0. -/
theorem resetMeetsInvariant : Obligations.ResetMeetsInvariant :=
  ⟨by decide, Nat.zero_le _, by decide, State.reset_dest_wf⟩

/-! ### The invariant after each operation -/

section
variable {s : State} (h : s.Inv)
include h

theorem State.Inv.used_le : s.rx.length ≤ s.config.cap := h.2.1

theorem State.Inv.dest_wf : s.dest.wf := h.2.2.2

theorem State.Inv.withRx {rx : List Byte} (hlen : rx.length ≤ s.config.cap) : (s.withRx rx).Inv := by
  obtain ⟨hcap, -, hrsp, hdest⟩ := h
  exact ⟨hcap, hlen, hrsp, hdest⟩

theorem State.Inv.withRsp {w : ResponseWord} (hw : rspLegal w = true) : (s.withRsp w).Inv := by
  obtain ⟨hcap, hused, -, hdest⟩ := h
  exact ⟨hcap, hused, hw, hdest⟩

theorem State.Inv.withDest {m : Memory} (hm : m.wf) : (s.withDest m).Inv := by
  obtain ⟨hcap, hused, hrsp, -⟩ := h
  exact ⟨hcap, hused, hrsp, hm⟩

/-- The invariant does not speak of SRC. -/
theorem State.Inv.withSrc (src : List Byte) : (s.withSrc src).Inv := h

/-- The invariant does not speak of an announced read error. -/
theorem State.Inv.withReadError (e : Option Nat) : (s.withReadError e).Inv := h

/-- The invariant does not speak of what is pending. -/
theorem State.Inv.withPending (pending : List Event) : (s.withPending pending).Inv := h

/-- Whatever is answered, it holds no reserved output (R62). -/
theorem State.Inv.respond (r : Response) : (s.respond r).Inv := h.withRsp r.word_legal

theorem State.Inv.clear : s.clear.Inv := h.withRx (Nat.zero_le _)

theorem State.Inv.drop (k : Nat) : (s.withRx (s.rx.drop k)).Inv := by
  apply h.withRx
  rw [List.length_drop]
  exact (Nat.sub_le ..).trans h.used_le

theorem State.Inv.applyMove (m : Move) : (s.applyMove m).Inv := by
  cases m with
  | feed bytes => exact h.withSrc _
  | readError dropped => exact h.withReadError _
  | supplyDest contents => exact h.withDest (Memory.wf_writeBytes Memory.wf_nil _ _)
  | powerOn => exact h.clear.withRsp (by decide)

/-! ### The invariant after each command -/

/-- A rejection only shortens RX, or leaves it (R79). -/
theorem State.Inv.rejected (i : Nat) : (s.rejected i).Inv := by
  unfold State.rejected
  cases s.config.badFramePolicy with
  | discard => exact h.drop _
  | retain => exact h

/-- An extraction writes DEST and shortens RX (R81). -/
theorem State.Inv.extracted (i span : Nat) : (s.extracted i span).Inv :=
  (h.withDest (State.extracted_dest_wf h.dest_wf i span)).drop (i + span)

theorem ScanEnd.inv {dcap : BitVec 16} {t : State} (he : ScanEnd dcap s t) : t.Inv := by
  cases he with
  | waits => exact h.respond _
  | rejects i d => exact (h.rejected i).respond _
  | tooSmall i span cls => exact h.respond _
  | packet i span cls => exact (h.extracted i span).respond _

/-- The ingest appends no more bytes than RX has room for (R72). -/
theorem Ingests.inv {t : State} (hi : Ingests s t) : t.Inv := by
  rcases hi with ⟨-, rfl⟩ | ⟨-, hroom, -, rfl⟩
  · exact h
  · refine (h.withRx (rx := s.rx ++ s.src.take (s.config.cap - s.rx.length)) ?_).withSrc _
    simp only [List.length_append, List.length_take]
    omega

theorem PollEnd.inv {dcap : BitVec 16} {t : State} (he : PollEnd dcap s t) : t.Inv := by
  cases he with
  | bufferFull => exact h.respond _
  | readFailure k => exact ((h.withSrc _).withReadError none).respond _
  | scans hi hs => exact hs.inv (hi.inv h)

theorem exec_keeps_inv {i : Instr} {t : State} (he : exec i s = .next t) : t.Inv := by
  cases i with
  | poll dcap =>
    obtain ⟨u, hu, hend⟩ := execPoll_ends dcap s
    obtain rfl : u = t := Host.Outcome.next.inj (hu.symm.trans he)
    exact hend.inv h
  | reset =>
    cases he
    exact h.clear.respond _
  | classify | rtcmLen | rtcmType =>
    cases he
    exact h.respond _

theorem step_keeps_inv {t : State} (hs : step s = .next t) : t.Inv := by
  rcases step_cases hs with ⟨-, rfl⟩ | ⟨rest, ⟨m, -, rfl⟩ | ⟨w, -, ⟨i, -, he⟩ | ⟨-, rfl⟩⟩⟩
  · exact h
  · exact (h.withPending rest).applyMove m
  · exact exec_keeps_inv (h.withPending rest) he
  · exact (h.withPending rest).respond _

end

/-- Settles O43, by the cases of a step: it waits, makes a move, executes a command, or answers an illegal word. -/
theorem stepKeepsInvariant : Obligations.StepKeepsInvariant := fun _ _ h hs => step_keeps_inv h hs

end Sys2Proof.Machine
end

section
/-! PROOFS. The state at a command boundary: what a step runs, what power-on and RESET leave, what stands in RSP, and
which of the three implicit states the receive buffer is in. -/

namespace Sys2Proof.Machine

/-! ### The command port -/

/-- A legal command word that is next on the port is executed on the state without it (R32, R51). -/
theorem step_of_decode {s : State} {w : CommandWord} {rest : List Event} {i : Instr}
    (hp : s.pending = .command w :: rest) (hd : decode w = .ok i) : step s = exec i (s.withPending rest) := by
  simp only [step, State.takeEvent, hp, hd]

/-- Taking the word that was just put on the port gives the state back. -/
theorem State.issue_withPending (s : State) (w : CommandWord) : (s.issue w).withPending s.pending = s := rfl

theorem decodeTableWord_eq_some {nbits w : Nat} {i : Instr} :
    decodeTableWord nbits w = some i ↔ decode (commandWord nbits w) = .ok i := by
  unfold decodeTableWord
  cases decode (commandWord nbits w) with
  | ok j => simp
  | error e => simp

/-- Settles O1: `withFetchWord` puts the word on the port, and a step takes it from there. -/
theorem stepRunsDecodedCommand : Obligations.StepRunsDecodedCommand := by
  refine ⟨fun s w rest i hp hd => step_of_decode hp hd, fun s nbits w i hd => ?_⟩
  calc step (s.withFetchWord nbits w)
      = exec i ((s.issue (commandWord nbits w)).withPending s.pending) :=
        step_of_decode (State.issue_pending ..) (decodeTableWord_eq_some.1 hd)
    _ = exec i s := by rw [State.issue_withPending]

/-! ### Power-on and RESET -/

/-- The response of RESET is the RSP of power-on (R85, R102). -/
theorem Response.word_of_reset : Response.word ⟨.ok, .none, .none, 0⟩ = 0x00000000#32 := by decide

/-- RESET leaves DFR as power-on does (R22, R85). -/
theorem exec_reset_eq_powerOn (s : State) : exec .reset s = .next s.powerOn :=
  congrArg (fun w => (.next (s.clear.withRsp w) : Result)) Response.word_of_reset

/-- Settles O14: power-on clears RX and RSP, and so does RESET. -/
theorem powerOnAndResetLeaveEmptyBuffer : Obligations.PowerOnAndResetLeaveEmptyBuffer :=
  ⟨⟨rfl, rfl, rfl, rfl⟩, fun _ => rfl, exec_reset_eq_powerOn⟩

/-! ### RSP after a command -/

theorem rspReserved_eq_zero_iff (w : ResponseWord) : rspReserved w = 0 ↔ w.toNat < 2 ^ 24 := by
  have := w.isLt
  rw [← BitVec.toNat_inj, rspReserved, BitVec.extractLsb'_toNat, Nat.shiftRight_eq_div_pow]
  simp only [BitVec.ofNat_eq_ofNat, BitVec.toNat_ofNat]
  omega

/-- A word without a reserved output, field by field (R18, R52, R54). -/
theorem rspLegal_iff (w : ResponseWord) : rspLegal w = true ↔
    w.toNat < 2 ^ 24 ∧ ((rspStatus w).toNat ≤ 5 ∨ rspStatus w = 0xF#4) ∧ rspDiag w ≠ 3 := by
  rw [← rspReserved_eq_zero_iff]
  simp [rspLegal, isStatusCode, and_assoc]

theorem ScanEnd.rsp_legal {dcap : BitVec 16} {s t : State} (h : ScanEnd dcap s t) : rspLegal t.rsp = true := by
  cases h with
  | waits | rejects | tooSmall | packet => exact Response.word_legal _

theorem PollEnd.rsp_legal {dcap : BitVec 16} {s t : State} (h : PollEnd dcap s t) : rspLegal t.rsp = true := by
  cases h with
  | bufferFull | readFailure => exact Response.word_legal _
  | scans _ hs => exact hs.rsp_legal

/-- Every command writes all of RSP, so what stood there before does not matter (R11, R18). -/
theorem exec_rsp_legal {i : Instr} {s t : State} (he : exec i s = .next t) : rspLegal t.rsp = true := by
  cases i with
  | poll dcap =>
    obtain ⟨u, hu, hend⟩ := execPoll_ends dcap s
    obtain rfl : u = t := Host.Outcome.next.inj (hu.symm.trans he)
    exact hend.rsp_legal
  | reset | classify | rtcmLen | rtcmType =>
    cases he
    exact Response.word_legal _

theorem step_command_rsp_legal {s t : State} {w : CommandWord} {rest : List Event}
    (hp : s.pending = .command w :: rest) (hs : step s = .next t) : rspLegal t.rsp = true := by
  rcases step_cases hs with ⟨hnil, -⟩ | ⟨_, ⟨m, hmove, -⟩ | ⟨_, -, ⟨i, -, he⟩ | ⟨-, rfl⟩⟩⟩
  · simp [hp] at hnil
  · simp [hp] at hmove
  · exact exec_rsp_legal he
  · exact Response.word_legal _

/-- Settles O30: a legal word and an illegal one both end by writing a whole response, in any state. -/
theorem noReservedOutput : Obligations.NoReservedOutput :=
  fun _ t _ _ hp hs => (rspLegal_iff t.rsp).1 (step_command_rsp_legal hp hs)

/-! ### The implicit states of the receive buffer -/

/-- The first candidate in the buffer is a complete packet (R76, R78). -/
def HasPacket (rx : List Byte) : Prop := ∃ i span cls, PacketAt rx i span cls

theorem not_hasPacket_nil : ¬ HasPacket [] := by
  rintro ⟨i, span, cls, h⟩
  rcases h.marker with ⟨-, h⟩ | ⟨-, h⟩ <;> cases h

/-- The bytes of a header are determined by its place. -/
theorem HeaderAt.unique {rx : List Byte} {i : Nat} {h1 h2 k1 k2 : Byte} (h : HeaderAt rx i h1 h2)
    (k : HeaderAt rx i k1 k2) : h1 = k1 ∧ h2 = k2 :=
  ⟨Option.some.inj (h.2.1.symm.trans k.2.1), Option.some.inj (h.2.2.symm.trans k.2.2)⟩

/-- Where the first candidate is proven invalid there is no packet, since there is no other candidate (R75, R78). -/
theorem ProvenInvalidAt.not_hasPacket {rx : List Byte} {i : Nat} {d : Diag} (h : ProvenInvalidAt rx i d) :
    ¬ HasPacket rx := by
  rintro ⟨k, span, cls, hp⟩
  obtain rfl : k = i := marker_unique hp.marker (.inr h.1)
  obtain ⟨hr, h1, h2, hh, hbad⟩ := h
  rcases hp with ⟨-, hn, -⟩ | ⟨-, l, ⟨-, k1, k2, hk, hlt, rfl, -, hcrc⟩, -⟩
  · exact not_nmea_and_rtcm hn hr
  · obtain ⟨rfl, rfl⟩ := hh.unique hk
    rcases hbad with ⟨-, hge⟩ | ⟨-, -, -, hncrc⟩
    · omega
    · exact hncrc hcrc

/-- The scan answers for a packet exactly when there is one: NO_PACKET otherwise (R80 to R82). -/
theorem ScanEnd.status {dcap : BitVec 16} {s t : State} (h : ScanEnd dcap s t) :
    (¬ HasPacket s.rx ∧ rspStatus t.rsp = Status.noPacket.code) ∨
    (HasPacket s.rx ∧ (rspStatus t.rsp = Status.packet.code ∨ rspStatus t.rsp = Status.bufferTooSmall.code)) := by
  cases h with
  | waits h => exact .inl ⟨fun ⟨i, span, cls, hp⟩ => (h i).1 span cls hp, Response.status_word _⟩
  | rejects i d h => exact .inl ⟨h.not_hasPacket, Response.status_word _⟩
  | tooSmall i span cls h => exact .inr ⟨⟨i, span, cls, h⟩, .inr (Response.status_word _)⟩
  | packet i span cls h => exact .inr ⟨⟨i, span, cls, h⟩, .inl (Response.status_word _)⟩

/-- A POLL with no new bytes is the scan of RX as it stands (R72). -/
theorem quietPoll_ends (dcap : BitVec 16) (s : State) :
    ∃ t, quietPoll dcap s = some t.rsp ∧ ScanEnd dcap (s.withSrc []) t := by
  obtain ⟨t, ht, hend⟩ := pollScan_ends dcap (s.withSrc [])
  have he : exec (.poll dcap) (s.withSrc []) = .next t := (execPoll_ingests (.inl ⟨rfl, rfl⟩) dcap).trans ht
  exact ⟨t, by rw [quietPoll, he]; rfl, hend⟩

/-- The next POLL with no new bytes answers for a packet exactly when RX has one, whatever its DCAP. -/
theorem quietPoll_status (dcap : BitVec 16) (s : State) : ∃ w, quietPoll dcap s = some w ∧
    ((¬ HasPacket s.rx ∧ rspStatus w = Status.noPacket.code) ∨
     (HasPacket s.rx ∧ (rspStatus w = Status.packet.code ∨ rspStatus w = Status.bufferTooSmall.code))) := by
  obtain ⟨t, ht, hend⟩ := quietPoll_ends dcap s
  exact ⟨t.rsp, ht, hend.status⟩

theorem State.isPacketReady_iff (s : State) : s.isPacketReady ↔ HasPacket s.rx := by
  constructor
  · intro h
    obtain ⟨w, hw, hready⟩ := h 0
    obtain ⟨w', hw', ⟨-, hno⟩ | ⟨hp, -⟩⟩ := quietPoll_status 0 s
    · obtain rfl : w = w' := Option.some.inj (hw.symm.trans hw')
      rw [hno] at hready
      exact absurd hready (by decide)
    · exact hp
  · intro hp dcap
    obtain ⟨w, hw, ⟨hn, -⟩ | ⟨-, hready⟩⟩ := quietPoll_status dcap s
    · exact absurd hp hn
    · exact ⟨w, hw, hready⟩

theorem State.isAccumulating_iff (s : State) : s.isAccumulating ↔ ¬ s.isEmpty ∧ ¬ HasPacket s.rx := by
  refine and_congr Nat.pos_iff_ne_zero ⟨fun h => ?_, fun hn dcap => ?_⟩
  · obtain ⟨w, hw, hno⟩ := h 0
    obtain ⟨w', hw', ⟨hn, -⟩ | ⟨-, hready⟩⟩ := quietPoll_status 0 s
    · exact hn
    · obtain rfl : w = w' := Option.some.inj (hw.symm.trans hw')
      rw [hno] at hready
      exact absurd hready (by decide)
  · obtain ⟨w, hw, ⟨-, hno⟩ | ⟨hp, -⟩⟩ := quietPoll_status dcap s
    · exact ⟨w, hw, hno⟩
    · exact absurd hp hn

/-- An empty buffer holds no packet. -/
theorem State.isEmpty.not_hasPacket {s : State} (h : s.isEmpty) : ¬ HasPacket s.rx := by
  rw [List.eq_nil_of_length_eq_zero h]
  exact not_hasPacket_nil

/-- Settles O32: the buffer is empty or not, and holds a complete packet or not, and an empty one holds none. -/
theorem exactlyOneBufferState : Obligations.ExactlyOneBufferState := by
  intro s
  rw [s.isAccumulating_iff, s.isPacketReady_iff]
  by_cases he : s.isEmpty
  · exact .inl ⟨he, fun h => h.1 he, he.not_hasPacket⟩
  by_cases hp : HasPacket s.rx
  · exact .inr (.inr ⟨he, fun h => h.2 hp, hp⟩)
  · exact .inr (.inl ⟨he, ⟨he, hp⟩, hp⟩)

end Sys2Proof.Machine
end

section
/-! PROOFS. What happens around a command: the moves of the outside, the buffer manager, the run from power-on, who
writes DEST and that nothing reads it. -/

namespace Sys2Proof.Machine

/-! ### One equation for each thing that can be next on the ports -/

section
variable {s : State} {rest : List Event}

/-- Where nothing waits, the machine waits (log 4). -/
theorem step_of_nil (hp : s.pending = []) : step s = .next s := by
  simp only [step, State.takeEvent, hp]

/-- A move that is next is made (R40). -/
theorem step_of_move {m : Move} (hp : s.pending = .move m :: rest) :
    step s = .next ((s.withPending rest).applyMove m) := by
  simp only [step, State.takeEvent, hp]

/-- An illegal word that is next is answered, with no command executed (R87). -/
theorem step_of_decode_error {w : CommandWord} {e : DecodeError} (hp : s.pending = .command w :: rest)
    (hd : decode w = .error e) : step s = execIllegal (s.withPending rest) := by
  simp only [step, State.takeEvent, hp, hd]

end

/-- A step always ends in a next state (R83, R89). -/
theorem step_ends (s : State) : ∃ t, step s = .next t := by
  cases hp : s.pending with
  | nil => exact ⟨s, step_of_nil hp⟩
  | cons e rest =>
    cases e with
    | move m => exact ⟨_, step_of_move hp⟩
    | command w =>
      cases hd : decode w with
      | ok i =>
        rw [step_of_decode hp hd]
        exact exec_ends i _
      | error e => exact ⟨_, step_of_decode_error hp hd⟩

/-! ### The moves of the outside -/

/-- A buffer filled from offset 0 on holds its contents and nothing else. -/
theorem Memory.read_writeBytes_nil (bytes : List Byte) (k : Nat) :
    (Memory.writeBytes [] 0 bytes).read k = bytes[k]? := by
  rw [Memory.read_writeBytes Memory.wf_nil, Nat.zero_add, Nat.sub_zero, Memory.read_nil]
  split
  · rfl
  · rw [List.getElem?_eq_none (by omega)]

/-- Settles O2: the step is the move, and the new DEST of a move is the canonical memory of its contents. -/
theorem stepMakesMoveOrWaits : Obligations.StepMakesMoveOrWaits := by
  refine ⟨fun _ hp => step_of_nil hp, fun _ _ _ hp => step_of_move hp, fun _ _ _ hp => step_of_move hp,
    fun _ _ bytes hp => ?_, fun _ _ hp => step_of_move hp⟩
  exact ⟨_, step_of_move hp, Memory.wf_writeBytes Memory.wf_nil _ _, Memory.read_writeBytes_nil bytes⟩

/-! ### The buffer manager -/

theorem State.append_overflows {s : State} {bs : List Byte} (h : s.config.cap < s.used + bs.length) :
    s.append bs = .fault .appendBeyondCapacity := if_neg (Nat.not_le.2 h)

theorem State.compact_beyond {s : State} {k : Nat} (h : s.used < k) : s.compact k = .fault .compactBeyondUsed :=
  if_neg (Nat.not_le.2 h)

/-- Settles O40: each of Append and Compact is decided by its one precondition. -/
theorem bufferManagerPrimitives : Obligations.BufferManagerPrimitives :=
  ⟨fun _ _ => State.append_fits, fun _ _ => State.append_overflows, fun _ _ => State.compact_within,
    fun _ _ => State.compact_beyond, fun _ => ⟨rfl, rfl⟩⟩

/-! ### The commands other than POLL -/

/-- A later response replaces an earlier one whole (R11). -/
theorem State.respond_respond (s : State) (r r' : Response) : (s.respond r).respond r' = s.respond r' := rfl

/-- A command other than POLL answers from its operands, having cleared RX or left it (R85, R86, R68, R69). -/
theorem exec_of_not_poll {i : Instr} (hi : ∀ dcap, i ≠ .poll dcap) :
    ∃ r : Response, (∀ s, exec i s = .next (s.respond r)) ∨ ∀ s, exec i s = .next (s.clear.respond r) := by
  cases i with
  | poll dcap => exact absurd rfl (hi dcap)
  | reset => exact ⟨_, .inr fun _ => rfl⟩
  | classify => exact ⟨_, .inl fun _ => rfl⟩
  | rtcmLen => exact ⟨_, .inl fun _ => rfl⟩
  | rtcmType => exact ⟨_, .inl fun _ => rfl⟩

/-- Settles O15: the response is one for all states, and a second clearing and a second response change nothing. -/
theorem otherCommandsIgnoreTheBuffer : Obligations.OtherCommandsIgnoreTheBuffer := by
  intro i hi s s'
  obtain ⟨r, h | h⟩ := exec_of_not_poll hi
  · exact ⟨_, _, h s, h s', rfl, (h _).trans (congrArg _ (s.respond_respond r r))⟩
  · exact ⟨_, _, h s, h s', rfl, (h _).trans (congrArg _ (s.clear.respond_respond r r))⟩

/-! ### What POLL leaves unchanged -/

@[simp] theorem State.rejected_config (s : State) (i : Nat) : (s.rejected i).config = s.config := by
  unfold State.rejected
  split <;> rfl

@[simp] theorem State.rejected_dest (s : State) (i : Nat) : (s.rejected i).dest = s.dest := by
  unfold State.rejected
  split <;> rfl

theorem Ingests.config_eq {s t : State} (h : Ingests s t) : t.config = s.config := by
  rcases h with ⟨-, rfl⟩ | ⟨-, -, -, rfl⟩ <;> rfl

theorem Ingests.dest_eq {s t : State} (h : Ingests s t) : t.dest = s.dest := by
  rcases h with ⟨-, rfl⟩ | ⟨-, -, -, rfl⟩ <;> rfl

/-- The inversion of POLL for a run of it that went on (R71, R84). -/
theorem pollEnd_of_exec {dcap : BitVec 16} {s t : State} (he : exec (.poll dcap) s = .next t) : PollEnd dcap s t := by
  obtain ⟨u, hu, hend⟩ := execPoll_ends dcap s
  obtain rfl : u = t := Host.Outcome.next.inj (hu.symm.trans he)
  exact hend

theorem ScanEnd.config_eq {dcap : BitVec 16} {s t : State} (h : ScanEnd dcap s t) : t.config = s.config := by
  cases h with
  | waits => rfl
  | rejects i => exact s.rejected_config i
  | tooSmall => rfl
  | packet => rfl

theorem PollEnd.config_eq {dcap : BitVec 16} {s t : State} (h : PollEnd dcap s t) : t.config = s.config := by
  cases h with
  | bufferFull => rfl
  | readFailure => rfl
  | scans hi hs => exact hs.config_eq.trans hi.config_eq

theorem exec_config_eq {i : Instr} {s t : State} (he : exec i s = .next t) : t.config = s.config := by
  cases i with
  | poll dcap => exact (pollEnd_of_exec he).config_eq
  | reset | classify | rtcmLen | rtcmType =>
    cases he
    rfl

@[simp] theorem State.applyMove_config (s : State) (m : Move) : (s.applyMove m).config = s.config := by
  cases m <;> rfl

/-- No step changes the parameters (R21). -/
theorem step_config_eq {s t : State} (hs : step s = .next t) : t.config = s.config := by
  rcases step_cases hs with ⟨-, rfl⟩ | ⟨rest, ⟨m, -, rfl⟩ | ⟨w, -, ⟨i, -, he⟩ | ⟨-, rfl⟩⟩⟩
  · rfl
  · exact State.applyMove_config _ m
  · exact (exec_config_eq he).trans (State.withPending_config ..)
  · rfl

/-! ### The run from power-on -/

/-- A run of any length ends in a next state: no fault is reachable and nothing is refused (R83, R89). -/
theorem runSteps_ends (k : Nat) (s : State) : ∃ t, runSteps k s = .next t := by
  induction k generalizing s with
  | zero => exact ⟨s, rfl⟩
  | succ k ih =>
    obtain ⟨u, hu⟩ := step_ends s
    rw [runSteps_succ hu]
    exact ih u

/-- Power-on leaves the invariant true of every legal configuration, whatever is pending. -/
theorem reset_inv_of_legal {c : Config} (hc : c.Legal) (events : List Event) :
    State.Inv { State.reset with config := c, pending := events } := by
  obtain ⟨-, -, hrsp, hdest⟩ := resetMeetsInvariant
  exact ⟨hc, Nat.zero_le _, hrsp, hdest⟩

/-- Settles O45: the run ends, and every step of it keeps the invariant and the parameters. -/
theorem everyRunKeepsInvariant : Obligations.EveryRunKeepsInvariant := by
  intro c events k hc
  obtain ⟨t, ht⟩ := runSteps_ends k { State.reset with config := c, pending := events }
  have hkeeps : t.Inv ∧ t.config = c :=
    runSteps_keeps (P := fun u => u.Inv ∧ u.config = c)
      (fun _ _ ⟨hinv, hcfg⟩ hs => ⟨step_keeps_inv hinv hs, (step_config_eq hs).trans hcfg⟩)
      k _ t ⟨reset_inv_of_legal hc events, rfl⟩ ht
  exact ⟨t, ht, hkeeps⟩

/-! ### Who writes DEST -/

/-- The code of PACKET is that of no other STATUS (R52). -/
theorem Response.status_eq_packet {r : Response} (h : rspStatus r.word = Status.packet.code) : r.status = .packet := by
  rw [Response.status_word] at h
  cases hst : r.status with
  | packet => rfl
  | ok | noPacket | bufferFull | bufferTooSmall | readFailure | illegal =>
    rw [hst] at h
    exact absurd h (by decide)

/-- Only the scan that answers PACKET writes DEST (R81). -/
theorem ScanEnd.dest_eq_of_not_packet {dcap : BitVec 16} {s t : State} (h : ScanEnd dcap s t)
    (hne : rspStatus t.rsp ≠ Status.packet.code) : t.dest = s.dest := by
  cases h with
  | waits => rfl
  | rejects i => exact s.rejected_dest i
  | tooSmall => rfl
  | packet => exact absurd (Response.status_word _) hne

/-- A scan that answers PACKET has extracted the first candidate (R81). -/
theorem ScanEnd.extracted_of_packet {dcap : BitVec 16} {s t : State} (h : ScanEnd dcap s t)
    (hst : rspStatus t.rsp = Status.packet.code) :
    ∃ i span cls, PacketAt s.rx i span cls ∧ span + 1 ≤ dcap.toNat ∧
      t = (s.extracted i span).respond ⟨.packet, cls, .none, BitVec.ofNat 16 span⟩ := by
  cases h with
  | waits | rejects | tooSmall => cases Response.status_eq_packet hst
  | packet i span cls hp hd => exact ⟨i, span, cls, hp, hd, rfl⟩

theorem PollEnd.dest_eq_of_not_packet {dcap : BitVec 16} {s t : State} (h : PollEnd dcap s t)
    (hne : rspStatus t.rsp ≠ Status.packet.code) : t.dest = s.dest := by
  cases h with
  | bufferFull => rfl
  | readFailure => rfl
  | scans hi hs => exact (hs.dest_eq_of_not_packet hne).trans hi.dest_eq

/-- A POLL that answers PACKET took its bytes in and extracted the first candidate (R72, R81). -/
theorem PollEnd.extracted_of_packet {dcap : BitVec 16} {s t : State} (h : PollEnd dcap s t)
    (hst : rspStatus t.rsp = Status.packet.code) :
    ∃ u i span cls, Ingests s u ∧ PacketAt u.rx i span cls ∧ span + 1 ≤ dcap.toNat ∧
      t = (u.extracted i span).respond ⟨.packet, cls, .none, BitVec.ofNat 16 span⟩ := by
  cases h with
  | bufferFull | readFailure => cases Response.status_eq_packet hst
  | scans hi hs =>
    obtain ⟨i, span, cls, h⟩ := hs.extracted_of_packet hst
    exact ⟨_, i, span, cls, hi, h⟩

theorem exec_dest_eq_of_not_packet {i : Instr} {s t : State} (he : exec i s = .next t)
    (hne : rspStatus t.rsp ≠ Status.packet.code) : t.dest = s.dest := by
  cases i with
  | poll dcap => exact (pollEnd_of_exec he).dest_eq_of_not_packet hne
  | reset | classify | rtcmLen | rtcmType =>
    cases he
    rfl

/-- Only a POLL answers PACKET (R55). -/
theorem exists_poll_of_packet {i : Instr} {s t : State} (he : exec i s = .next t)
    (hst : rspStatus t.rsp = Status.packet.code) : ∃ dcap, i = .poll dcap := by
  cases i with
  | poll dcap => exact ⟨dcap, rfl⟩
  | reset | classify | rtcmLen | rtcmType =>
    cases he
    cases Response.status_eq_packet hst

/-- A span that a DCAP allows fits in DATA. -/
theorem toNat_data_of_fits {span : Nat} {dcap : BitVec 16} (h : span + 1 ≤ dcap.toNat) :
    (BitVec.ofNat 16 span).toNat = span := by
  have := dcap.isLt
  rw [BitVec.toNat_ofNat, Nat.mod_eq_of_lt (by omega)]

/-- Settles O28: DEST after PACKET is that of the copy of the extracted packet, offset by offset. -/
theorem destWrittenOnlyByPacket : Obligations.DestWrittenOnlyByPacket := by
  intro i s t hinv he
  refine ⟨exec_dest_eq_of_not_packet he, fun hst => ?_⟩
  obtain ⟨dcap, rfl⟩ := exists_poll_of_packet he hst
  obtain ⟨u, i₀, span, cls, hi, hp, hd, rfl⟩ := (pollEnd_of_exec he).extracted_of_packet hst
  have hread := State.read_extracted (hi.inv hinv).dest_wf hp.within
  rw [State.respond_rsp, Response.data_word, toNat_data_of_fits hd, State.respond_dest]
  refine ⟨dcap, u, i₀, cls, rfl, hi, hp, hd, fun k hk => ?_, ?_, fun k hk => ?_⟩
  · rw [hread, if_pos hk]
  · rw [hread, if_neg (lt_irrefl _), if_pos rfl]
  · rw [hread, if_neg hk.asymm, if_neg hk.ne', hi.dest_eq]

/-! ### Nothing reads DEST -/

/-- The second outcome is the first, but for what DEST holds. -/
inductive SameButDest : Result → Result → Prop where
  | next (s : State) (m : Memory) : SameButDest (.next s) (.next (s.withDest m))
  | fault (r : Fault) : SameButDest (.fault r) (.fault r)
  | refused (r : Refusal) : SameButDest (.refused r) (.refused r)

/-- The operation runs alike whatever DEST holds. -/
def IgnoresDest (f : State → Result) : Prop := ∀ (s : State) (m : Memory), SameButDest (f s) (f (s.withDest m))

/-- A next state stays one, and differs in DEST alone. -/
theorem SameButDest.next_iff {s : State} {o : Result} :
    SameButDest (.next s) o ↔ ∃ m, o = .next (s.withDest m) := by
  constructor
  · rintro ⟨⟩
    exact ⟨_, rfl⟩
  · rintro ⟨m, rfl⟩
    exact .next s m

/-- Operations that ignore DEST may be put one after the other. -/
theorem SameButDest.andThen {o o' : Result} {f : State → Result} (ho : SameButDest o o') (hf : IgnoresDest f) :
    SameButDest (andThen o f) (andThen o' f) := by
  cases ho with
  | next s m => exact hf s m
  | fault r => exact .fault r
  | refused r => exact .refused r

/-- A choice that does not depend on DEST. -/
theorem SameButDest.ite {c : Prop} [Decidable c] {a a' b b' : Result} (ha : SameButDest a a') (hb : SameButDest b b') :
    SameButDest (if c then a else b) (if c then a' else b') := by
  by_cases hc : c
  · simpa only [if_pos hc] using ha
  · simpa only [if_neg hc] using hb

theorem respond_ignoresDest (r : Response) : IgnoresDest fun s => .next (s.respond r) :=
  fun s m => .next (s.respond r) m

theorem append_ignoresDest (bs : List Byte) : IgnoresDest fun s => s.append bs :=
  fun s m => .ite (.next (s.withRx (s.rx ++ bs)) m) (.fault _)

theorem compact_ignoresDest (k : Nat) : IgnoresDest fun s => s.compact k :=
  fun s m => .ite (.next (s.withRx (s.rx.drop k)) m) (.fault _)

theorem reject_ignoresDest (i : Nat) (d : Diag) : IgnoresDest (reject i d) := by
  intro s m
  unfold reject
  rw [State.withDest_config]
  cases s.config.badFramePolicy with
  | discard => exact (compact_ignoresDest (i + 1) s m).andThen (respond_ignoresDest _)
  | retain => exact respond_ignoresDest _ s m

/-- The copy to DEST overwrites whatever DEST held, and reads none of it (R28, R81). -/
theorem extract_ignoresDest (i span : Nat) (cls : PacketClass) (dcap : BitVec 16) :
    IgnoresDest (extract i span cls dcap) := fun s m =>
  .ite (respond_ignoresDest _ s m)
    ((compact_ignoresDest (i + span) ((s.destWriteBytes 0 ((s.rx.drop i).take span)).destWrite span 0x00)
      ((m.writeBytes 0 ((s.rx.drop i).take span)).write span 0x00)).andThen (respond_ignoresDest _))

theorem nmeaCandidate_ignoresDest (i : Nat) (dcap : BitVec 16) : IgnoresDest (nmeaCandidate i dcap) := by
  intro s m
  unfold nmeaCandidate
  rw [State.withDest_rx]
  cases findCrLf (s.rx.drop (i + 1)) with
  | none => exact respond_ignoresDest _ s m
  | some k => exact extract_ignoresDest i _ .nmea dcap s m

theorem rtcmCandidate_ignoresDest (i : Nat) (dcap : BitVec 16) : IgnoresDest (rtcmCandidate i dcap) := fun s m =>
  .ite (respond_ignoresDest _ s m) <| .ite (reject_ignoresDest i _ s m) <| .ite (respond_ignoresDest _ s m) <|
    .ite (reject_ignoresDest i _ s m) (extract_ignoresDest i _ .rtcm dcap s m)

theorem pollScan_ignoresDest (dcap : BitVec 16) : IgnoresDest (pollScan dcap) := by
  intro s m
  unfold pollScan
  rw [State.withDest_rx]
  cases firstMarker s.rx with
  | none => exact respond_ignoresDest _ s m
  | some i => exact .ite (nmeaCandidate_ignoresDest i dcap s m) (rtcmCandidate_ignoresDest i dcap s m)

theorem execPoll_ignoresDest (dcap : BitVec 16) : IgnoresDest (execPoll dcap) := by
  intro s m
  refine .ite (.ite (respond_ignoresDest _ s m) ?_) (pollScan_ignoresDest dcap s m)
  simp only [State.srcRead, State.withDest_readError]
  cases s.readError with
  | none => exact (append_ignoresDest _ (s.withSrc _) m).andThen (pollScan_ignoresDest dcap)
  | some k => exact respond_ignoresDest _ ((s.withSrc _).withReadError none) m

theorem exec_ignoresDest (i : Instr) : IgnoresDest (exec i) := by
  intro s m
  cases i with
  | poll dcap => exact execPoll_ignoresDest dcap s m
  | reset => exact respond_ignoresDest _ s.clear m
  | classify => exact respond_ignoresDest _ s m
  | rtcmLen => exact respond_ignoresDest _ s m
  | rtcmType => exact respond_ignoresDest _ s m

/-- A move leaves DEST or replaces it, and reads it in neither case. -/
theorem applyMove_ignoresDest (mv : Move) : IgnoresDest fun s => .next (s.applyMove mv) := by
  intro s m
  cases mv with
  | feed bytes => exact .next (s.applyMove (.feed bytes)) m
  | readError k => exact .next (s.applyMove (.readError k)) m
  | supplyDest contents => exact .next (s.applyMove (.supplyDest contents)) (Memory.writeBytes [] 0 contents)
  | powerOn => exact .next s.powerOn m

theorem step_ignoresDest : IgnoresDest step := by
  intro s m
  cases hp : s.pending with
  | nil =>
    rw [step_of_nil hp, step_of_nil (s := s.withDest m) hp]
    exact .next s m
  | cons e rest =>
    cases e with
    | move mv =>
      rw [step_of_move hp, step_of_move (s := s.withDest m) hp]
      exact applyMove_ignoresDest mv (s.withPending rest) m
    | command w =>
      cases hd : decode w with
      | ok i =>
        rw [step_of_decode hp hd, step_of_decode (s := s.withDest m) hp hd]
        exact exec_ignoresDest i (s.withPending rest) m
      | error e =>
        rw [step_of_decode_error hp hd, step_of_decode_error (s := s.withDest m) hp hd]
        exact respond_ignoresDest _ (s.withPending rest) m

/-- Settles O35: every operation that a step is made of ignores DEST, and so does the step. -/
theorem nothingReadsDest : Obligations.NothingReadsDest := by
  intro s t m hs
  have h := step_ignoresDest s m
  rw [hs] at h
  exact SameButDest.next_iff.1 h

end Sys2Proof.Machine
end

section
/-! PROOFS. The encoding: the rows of the opcode table and the formats as numbers, the encoder, the assembler, and what a
response says by command. -/

namespace Sys2Proof

/-! ### The rows of the opcode table -/

/-- `OP` of a row (R46). -/
def Mnemonic.opcode : Mnemonic → Nat
  | .poll => 1
  | .reset => 2
  | .classify => 3
  | .rtcmLen => 4
  | .rtcmType => 5

/-- The first bit above the operands in the format of a row, from which on every bit must be zero (R47 to R50). -/
def Mnemonic.operandsEnd : Mnemonic → Nat
  | .poll => 24
  | .reset => 8
  | .classify => 32
  | .rtcmLen | .rtcmType => 48

/-- The mask of the low byte and of every bit from `k` on. -/
def maskAround (k : Nat) : CommandWord := placeAt 64 k (BitVec.allOnes (64 - k)) ||| placeAt 64 0 0xFF#8

theorem opcodeTable_mask : ∀ r ∈ opcodeTable, r.mask = maskAround r.mnemonic.operandsEnd := by decide

theorem opcodeTable_pattern : ∀ r ∈ opcodeTable, r.pattern.toNat = r.mnemonic.opcode := by decide

theorem opcodeTable_mnemonic_inj : ∀ r ∈ opcodeTable, ∀ r' ∈ opcodeTable, r.mnemonic = r'.mnemonic → r = r' := by
  decide

theorem exists_row (m : Mnemonic) : ∃ r ∈ opcodeTable, r.mnemonic = m := by cases m <;> decide

/-- Under such a mask a word keeps its low byte and its part from bit `k` on. -/
theorem and_maskAround (w : CommandWord) (k : Nat) :
    w &&& maskAround k = placeAt 64 k (w.extractLsb' k (64 - k)) ||| placeAt 64 0 (w.extractLsb' 0 8) := by
  apply BitVec.eq_of_getLsbD_eq
  intro i hi
  have hlow : (0xFF#8).getLsbD i = decide (i < 8) := BitVec.getLsbD_allOnes (v := 8)
  simp only [maskAround, BitVec.getLsbD_and, BitVec.getLsbD_or, getLsbD_placeAt, BitVec.getLsbD_allOnes,
    BitVec.getLsbD_extractLsb', Nat.sub_zero, Nat.zero_add, hlow]
  by_cases hk : k ≤ i
  · have hback : k + (i - k) = i := by omega
    have hfit : i - k < 64 - k := by omega
    simp [hk, hi, hback, hfit]
  · simp [hk, hi, Bool.and_comm]

theorem toNat_and_maskAround (w : CommandWord) {k : Nat} (h8 : 8 ≤ k) (h64 : k ≤ 64) :
    (w &&& maskAround k).toNat = w.toNat / 2 ^ k * 2 ^ k + w.toNat % 256 := by
  have hlow : (placeAt 64 0 (w.extractLsb' 0 8)).toNat = w.toNat % 256 := by
    rw [toNat_placeAt (by decide)]
    simp
  have hk : 2 ^ 8 ≤ 2 ^ k := Nat.pow_le_pow_right (by decide) h8
  have hhigh : w.toNat / 2 ^ k < 2 ^ (64 - k) := by
    rw [Nat.div_lt_iff_lt_mul (Nat.two_pow_pos k), ← Nat.pow_add, Nat.sub_add_cancel h64]
    exact w.isLt
  rw [and_maskAround, toNat_placeAt_or (by omega) _ (by omega), hlow, BitVec.extractLsb'_toNat,
    Nat.shiftRight_eq_div_pow, Nat.mod_eq_of_lt hhigh]

/-- A row's test as numbers: the low byte is `OP` alone, and no bit above the operands is set (R45, R51). -/
theorem and_mask_eq_pattern_iff {r : OpcodeRow} (hr : r ∈ opcodeTable) (w : CommandWord) :
    w &&& r.mask = r.pattern ↔
      w.toNat % 256 = r.mnemonic.opcode ∧ w.toNat / 2 ^ r.mnemonic.operandsEnd = 0 := by
  rw [← BitVec.toNat_inj, opcodeTable_mask r hr, opcodeTable_pattern r hr]
  cases r.mnemonic <;>
    · rw [toNat_and_maskAround w (by decide) (by decide)]
      simp only [Mnemonic.opcode, Mnemonic.operandsEnd]
      omega

@[simp] theorem mnemonicOf_readOperands (m : Mnemonic) (w : CommandWord) : mnemonicOf (readOperands m w) = m := by
  cases m <;> rfl

/-- A word that a row accepts decodes to the command of that row. -/
theorem decode_of_accepts {r : OpcodeRow} {w : CommandWord} (hr : r ∈ opcodeTable) (hw : w &&& r.mask = r.pattern) :
    decode w = .ok (readOperands r.mnemonic w) := decode_eq_ok.2 ⟨r, hr, hw, rfl⟩

/-- A word that decodes to a command of a row is accepted by that row. -/
theorem accepts_of_decode {r : OpcodeRow} {w : CommandWord} {i : Instr} (hr : r ∈ opcodeTable) (hd : decode w = .ok i)
    (hi : mnemonicOf i = r.mnemonic) : w &&& r.mask = r.pattern := by
  obtain ⟨r', hr', hw, rfl⟩ := decode_eq_ok.1 hd
  obtain rfl := opcodeTable_mnemonic_inj r' hr' r hr (by simpa using hi)
  exact hw

/-- No word is accepted by two different rows (R51). -/
theorem row_unique {r r' : OpcodeRow} {w : CommandWord} (hr : r ∈ opcodeTable) (hr' : r' ∈ opcodeTable)
    (hw : w &&& r.mask = r.pattern) (hw' : w &&& r'.mask = r'.pattern) : r = r' := by
  have heq : readOperands r.mnemonic w = readOperands r'.mnemonic w :=
    Except.ok.inj ((decode_of_accepts hr hw).symm.trans (decode_of_accepts hr' hw'))
  exact opcodeTable_mnemonic_inj r hr r' hr' (by simpa using congrArg mnemonicOf heq)

/-! ### Illegal words -/

theorem decode_eq_error {w : CommandWord} {e : DecodeError} :
    decode w = .error e ↔ (∀ r ∈ opcodeTable, w &&& r.mask ≠ r.pattern) ∧ illegalReason w = e := by
  unfold decode
  cases h : opcodeTable.find? (·.accepts w) with
  | none =>
    rw [List.find?_eq_none] at h
    have hno : ∀ r ∈ opcodeTable, w &&& r.mask ≠ r.pattern := fun r hr hw => h r hr ((r.accepts_iff w).2 hw)
    simpa using fun _ => hno
  | some r =>
    have hw := (r.accepts_iff w).1 (List.find?_some (p := fun r : OpcodeRow => r.accepts w) h)
    have hyes : ¬ ∀ r ∈ opcodeTable, w &&& r.mask ≠ r.pattern := fun hno => hno r (List.mem_of_find?_eq_some h) hw
    simp only [reduceCtorEq, hyes, false_and]

theorem isCommandOpcode_iff (w : CommandWord) :
    isCommandOpcode (opcodeField w) = true ↔ 1 ≤ w.toNat % 16 ∧ w.toNat % 16 ≤ 5 := by
  rw [isCommandOpcode, opcodeField, BitVec.extractLsb'_toNat, Bool.and_eq_true, decide_eq_true_iff, decide_eq_true_iff]
  rfl

theorem illegalReason_eq_reservedField {w : CommandWord} :
    illegalReason w = .reservedField ↔ 1 ≤ w.toNat % 16 ∧ w.toNat % 16 ≤ 5 := by
  rw [← isCommandOpcode_iff, illegalReason]
  split <;> simp [*]

theorem illegalReason_eq_reservedOpcode {w : CommandWord} :
    illegalReason w = .reservedOpcode ↔ ¬ (1 ≤ w.toNat % 16 ∧ w.toNat % 16 ≤ 5) := by
  rw [← isCommandOpcode_iff, illegalReason]
  split <;> simp [*]

/-- The word that a row accepts has one of the five opcodes. -/
theorem opcode_of_accepts {r : OpcodeRow} {w : CommandWord} (hr : r ∈ opcodeTable) (hw : w &&& r.mask = r.pattern) :
    1 ≤ w.toNat % 16 ∧ w.toNat % 16 ≤ 5 := by
  obtain ⟨hop, -⟩ := (and_mask_eq_pattern_iff hr w).1 hw
  have hrange : 1 ≤ r.mnemonic.opcode ∧ r.mnemonic.opcode ≤ 5 := by cases r.mnemonic <;> decide
  omega

theorem decode_eq_reservedOpcode {w : CommandWord} :
    decode w = .error .reservedOpcode ↔ ¬ (1 ≤ w.toNat % 16 ∧ w.toNat % 16 ≤ 5) := by
  rw [decode_eq_error, illegalReason_eq_reservedOpcode]
  exact and_iff_right_of_imp fun hop r hr hw => hop (opcode_of_accepts hr hw)

theorem decode_eq_reservedField {w : CommandWord} :
    decode w = .error .reservedField ↔
      (1 ≤ w.toNat % 16 ∧ w.toNat % 16 ≤ 5) ∧ ∀ r ∈ opcodeTable, w &&& r.mask ≠ r.pattern := by
  rw [decode_eq_error, illegalReason_eq_reservedField, and_comm]

/-! ### The formats as numbers -/

/-- A word of format H: its opcode, its five header bytes, and zero in every other bit (R50). -/
def FormatH (w : CommandWord) (op : Nat) (h0 h1 h2 h3 h4 : Byte) : Prop :=
  w.toNat % 16 = op ∧ w.toNat / 2 ^ 4 % 16 = 0 ∧ w.toNat / 2 ^ 8 % 256 = h0.toNat ∧ w.toNat / 2 ^ 16 % 256 = h1.toNat ∧
  w.toNat / 2 ^ 24 % 256 = h2.toNat ∧ w.toNat / 2 ^ 32 % 256 = h3.toNat ∧ w.toNat / 2 ^ 40 % 256 = h4.toNat ∧
  w.toNat / 2 ^ 48 = 0

/-- A word of the command's format whose operand fields are the command's operands (R47 to R50). -/
def HasFormat (w : CommandWord) : Instr → Prop
  | .poll dcap =>
    w.toNat % 16 = 1 ∧ w.toNat / 2 ^ 4 % 16 = 0 ∧ w.toNat / 2 ^ 8 % 65536 = dcap.toNat ∧ w.toNat / 2 ^ 24 = 0
  | .reset => w.toNat % 16 = 2 ∧ w.toNat / 2 ^ 4 = 0
  | .classify b0 plen =>
    w.toNat % 16 = 3 ∧ w.toNat / 2 ^ 4 % 16 = 0 ∧ w.toNat / 2 ^ 8 % 256 = b0.toNat ∧
    w.toNat / 2 ^ 16 % 65536 = plen.toNat ∧ w.toNat / 2 ^ 32 = 0
  | .rtcmLen h0 h1 h2 h3 h4 => FormatH w 4 h0 h1 h2 h3 h4
  | .rtcmType h0 h1 h2 h3 h4 => FormatH w 5 h0 h1 h2 h3 h4

theorem dcapField_eq_iff (w : CommandWord) (v : BitVec 16) : dcapField w = v ↔ w.toNat / 2 ^ 8 % 65536 = v.toNat := by
  rw [← BitVec.toNat_inj, dcapField, BitVec.extractLsb'_toNat, Nat.shiftRight_eq_div_pow]

theorem b0Field_eq_iff (w : CommandWord) (v : Byte) : b0Field w = v ↔ w.toNat / 2 ^ 8 % 256 = v.toNat := by
  rw [← BitVec.toNat_inj, b0Field, BitVec.extractLsb'_toNat, Nat.shiftRight_eq_div_pow]

theorem plenField_eq_iff (w : CommandWord) (v : BitVec 16) : plenField w = v ↔ w.toNat / 2 ^ 16 % 65536 = v.toNat := by
  rw [← BitVec.toNat_inj, plenField, BitVec.extractLsb'_toNat, Nat.shiftRight_eq_div_pow]

theorem headerField_eq_iff (k : Nat) (w : CommandWord) (v : Byte) :
    headerField k w = v ↔ w.toNat / 2 ^ (8 * k + 8) % 256 = v.toNat := by
  rw [← BitVec.toNat_inj, headerField, BitVec.extractLsb'_toNat, Nat.shiftRight_eq_div_pow]

/-- A word decodes to a command exactly when the command's row accepts it and its operand fields are the command's. -/
theorem decode_eq_ok_iff_fields {w : CommandWord} {i : Instr} :
    decode w = .ok i ↔
      (w.toNat % 256 = (mnemonicOf i).opcode ∧ w.toNat / 2 ^ (mnemonicOf i).operandsEnd = 0) ∧
        readOperands (mnemonicOf i) w = i := by
  obtain ⟨r, hr, hm⟩ := exists_row (mnemonicOf i)
  rw [← hm, ← and_mask_eq_pattern_iff hr]
  constructor
  · intro hd
    have hw := accepts_of_decode hr hd hm.symm
    exact ⟨hw, Except.ok.inj ((decode_of_accepts hr hw).symm.trans hd)⟩
  · rintro ⟨hw, hi⟩
    rw [decode_of_accepts hr hw, hi]

/-- The decoder reads the command's format and refuses every other word (R47 to R51). -/
theorem decode_eq_ok_iff_hasFormat {w : CommandWord} {i : Instr} : decode w = .ok i ↔ HasFormat w i := by
  rw [decode_eq_ok_iff_fields]
  cases i with
  | poll dcap =>
    simp only [mnemonicOf, Mnemonic.opcode, Mnemonic.operandsEnd, readOperands, Instr.poll.injEq, HasFormat,
      dcapField_eq_iff]
    omega
  | reset =>
    simp only [mnemonicOf, Mnemonic.opcode, Mnemonic.operandsEnd, readOperands, HasFormat, and_true]
    omega
  | classify b0 plen =>
    simp only [mnemonicOf, Mnemonic.opcode, Mnemonic.operandsEnd, readOperands, Instr.classify.injEq, HasFormat,
      b0Field_eq_iff, plenField_eq_iff]
    omega
  | rtcmLen h0 h1 h2 h3 h4 | rtcmType h0 h1 h2 h3 h4 =>
    simp only [mnemonicOf, Mnemonic.opcode, Mnemonic.operandsEnd, readOperands, Instr.rtcmLen.injEq,
      Instr.rtcmType.injEq, HasFormat, FormatH, headerField_eq_iff]
    omega

/-! ### The encoder -/

theorem toNat_encode_poll (dcap : BitVec 16) : (encode (.poll dcap)).toNat = dcap.toNat * 256 + 1 := by
  rw [encode, toNat_placeAt_or (by decide) dcap (by decide)]
  rfl

theorem toNat_encode_classify (b0 : Byte) (plen : BitVec 16) :
    (encode (.classify b0 plen)).toNat = plen.toNat * 65536 + b0.toNat * 256 + 3 := by
  have low : (placeAt 64 8 b0 ||| placeAt 64 0 0x3#4).toNat = b0.toNat * 256 + 3 := by
    rw [toNat_placeAt_or (by decide) b0 (by decide)]
    rfl
  have := b0.isLt
  rw [encode, BitVec.or_assoc, toNat_placeAt_or (by decide) plen (by omega), low]
  omega

/-- The number of a word of format H (R50, R60). -/
def formatHNumber (op h0 h1 h2 h3 h4 : Nat) : Nat :=
  h4 * 2 ^ 40 + h3 * 2 ^ 32 + h2 * 2 ^ 24 + h1 * 2 ^ 16 + h0 * 256 + op

/-- The concatenation of five header bytes and an opcode as a number (R50). -/
theorem toNat_formatH (op : BitVec 4) (h0 h1 h2 h3 h4 : Byte) :
    (placeAt 64 40 h4 ||| placeAt 64 32 h3 ||| placeAt 64 24 h2 ||| placeAt 64 16 h1 ||| placeAt 64 8 h0 |||
      placeAt 64 0 op).toNat =
    formatHNumber op.toNat h0.toNat h1.toNat h2.toNat h3.toNat h4.toNat := by
  have := op.isLt
  have := h0.isLt
  have := h1.isLt
  have := h2.isLt
  have := h3.isLt
  have e : (placeAt 64 0 op).toNat = op.toNat * 2 ^ 0 := toNat_placeAt (by decide) op
  have e0 : (placeAt 64 8 h0 ||| placeAt 64 0 op).toNat = _ := toNat_placeAt_or (by decide) h0 (by omega)
  have e1 : (placeAt 64 16 h1 ||| (placeAt 64 8 h0 ||| placeAt 64 0 op)).toNat = _ :=
    toNat_placeAt_or (by decide) h1 (by omega)
  have e2 : (placeAt 64 24 h2 ||| (placeAt 64 16 h1 ||| (placeAt 64 8 h0 ||| placeAt 64 0 op))).toNat = _ :=
    toNat_placeAt_or (by decide) h2 (by omega)
  have e3 : (placeAt 64 32 h3 ||| (placeAt 64 24 h2 ||| (placeAt 64 16 h1 ||| (placeAt 64 8 h0 |||
      placeAt 64 0 op)))).toNat = _ := toNat_placeAt_or (by decide) h3 (by omega)
  simp only [BitVec.or_assoc]
  rw [toNat_placeAt_or (by decide) h4 (by omega), formatHNumber]
  omega

theorem toNat_encode_rtcmLen (h0 h1 h2 h3 h4 : Byte) :
    (encode (.rtcmLen h0 h1 h2 h3 h4)).toNat = formatHNumber 4 h0.toNat h1.toNat h2.toNat h3.toNat h4.toNat :=
  toNat_formatH 4 ..

theorem toNat_encode_rtcmType (h0 h1 h2 h3 h4 : Byte) :
    (encode (.rtcmType h0 h1 h2 h3 h4)).toNat = formatHNumber 5 h0.toNat h1.toNat h2.toNat h3.toNat h4.toNat :=
  toNat_formatH 5 ..

/-- The number of a word of format H determines its fields, and they the number. -/
theorem formatHNumber_eq_iff {op : Nat} (hop : op < 16) (h0 h1 h2 h3 h4 : Byte) (w : CommandWord) :
    formatHNumber op h0.toNat h1.toNat h2.toNat h3.toNat h4.toNat = w.toNat ↔ FormatH w op h0 h1 h2 h3 h4 := by
  have := h0.isLt
  have := h1.isLt
  have := h2.isLt
  have := h3.isLt
  have := h4.isLt
  unfold FormatH formatHNumber
  omega

/-- The encoder writes the command's format and no other bit (R47 to R50, R60). -/
theorem encode_eq_iff_hasFormat {w : CommandWord} {i : Instr} : encode i = w ↔ HasFormat w i := by
  rw [← BitVec.toNat_inj]
  cases i with
  | poll dcap =>
    have := dcap.isLt
    rw [toNat_encode_poll, HasFormat]
    omega
  | reset =>
    rw [show (encode .reset).toNat = 2 from rfl, HasFormat]
    omega
  | classify b0 plen =>
    have := b0.isLt
    have := plen.isLt
    rw [toNat_encode_classify, HasFormat]
    omega
  | rtcmLen h0 h1 h2 h3 h4 =>
    rw [toNat_encode_rtcmLen]
    exact formatHNumber_eq_iff (by decide) ..
  | rtcmType h0 h1 h2 h3 h4 =>
    rw [toNat_encode_rtcmType]
    exact formatHNumber_eq_iff (by decide) ..

/-- Decoder and encoder are inverse to each other, since both are the format. -/
theorem decode_eq_ok_iff_encode {w : CommandWord} {i : Instr} : decode w = .ok i ↔ encode i = w :=
  decode_eq_ok_iff_hasFormat.trans encode_eq_iff_hasFormat.symm

/-- Settles O5: the word that `encode` writes has the command's format, and so decodes to it. -/
theorem decodeOfEncodeIsTheCommand : Obligations.DecodeOfEncodeIsTheCommand :=
  fun _ => decode_eq_ok_iff_encode.2 rfl

/-- Settles O6: a word that decodes to a command has the command's format, which fixes every bit of it. -/
theorem encodeOfDecodeIsTheWord : Obligations.EncodeOfDecodeIsTheWord :=
  fun _ _ => decode_eq_ok_iff_encode.1

/-- Settles O8: each format, field by field. -/
theorem formatFieldsDecode : Obligations.FormatFieldsDecode :=
  ⟨fun _ _ => decode_eq_ok_iff_hasFormat, fun _ => decode_eq_ok_iff_hasFormat,
    fun _ _ _ => decode_eq_ok_iff_hasFormat, fun _ _ _ _ _ _ => decode_eq_ok_iff_hasFormat,
    fun _ _ _ _ _ _ => decode_eq_ok_iff_hasFormat⟩

/-- Settles O4, by running the decoder. -/
theorem writtenWordsDecode : Obligations.WrittenWordsDecode := by
  unfold Obligations.WrittenWordsDecode
  decide

end Sys2Proof

namespace Sys2Proof.Machine

/-! ### Decoding by the rows, and the answer to an illegal word -/

/-- The response to an illegal word (R87). -/
theorem Response.word_of_illegal : Response.word ⟨.illegal, .none, .none, 0⟩ = 0x0000000F#32 := by decide

theorem execIllegal_eq (s : State) : execIllegal s = .next (s.withRsp 0x0000000F#32) :=
  congrArg (fun w => (.next (s.withRsp w) : Result)) Response.word_of_illegal

/-- Settles O7: a word decodes to a command of a row exactly when that row accepts it; no other row does, and where none
does the low nibble says why. -/
theorem opcodeTableDecoding : Obligations.OpcodeTableDecoding := by
  refine ⟨fun w => ⟨?_, fun h => ?_⟩, fun w => ⟨fun h => ?_, fun h => ?_⟩, fun w => ⟨?_, fun h => ?_⟩,
    fun w => ⟨?_, fun h => ?_⟩, fun w => ⟨?_, fun h => ?_⟩, fun w r hr r' hr' => row_unique hr hr', fun w => ?_,
    fun w => ?_, fun w => decode_eq_reservedField, fun s w rest e hp hd => ?_⟩
  · rintro ⟨dcap, h⟩
    exact accepts_of_decode (r := ⟨.poll, _, _⟩) (by decide) h rfl
  · exact ⟨_, decode_of_accepts (r := ⟨.poll, _, _⟩) (by decide) h⟩
  · exact accepts_of_decode (r := ⟨.reset, _, _⟩) (by decide) h rfl
  · exact decode_of_accepts (r := ⟨.reset, _, _⟩) (by decide) h
  · rintro ⟨b0, plen, h⟩
    exact accepts_of_decode (r := ⟨.classify, _, _⟩) (by decide) h rfl
  · exact ⟨_, _, decode_of_accepts (r := ⟨.classify, _, _⟩) (by decide) h⟩
  · rintro ⟨h0, h1, h2, h3, h4, h⟩
    exact accepts_of_decode (r := ⟨.rtcmLen, _, _⟩) (by decide) h rfl
  · exact ⟨_, _, _, _, _, decode_of_accepts (r := ⟨.rtcmLen, _, _⟩) (by decide) h⟩
  · rintro ⟨h0, h1, h2, h3, h4, h⟩
    exact accepts_of_decode (r := ⟨.rtcmType, _, _⟩) (by decide) h rfl
  · exact ⟨_, _, _, _, _, decode_of_accepts (r := ⟨.rtcmType, _, _⟩) (by decide) h⟩
  · simp [decode_eq_error]
  · rw [decode_eq_reservedOpcode]
    omega
  · exact (step_of_decode_error hp hd).trans (execIllegal_eq _)

/-! ### The assembler -/

@[simp] theorem fitsField_iff (width n : Nat) : fitsField width n = true ↔ n < 2 ^ width := decide_eq_true_iff

/-- A line that writes a command assembles to the command's word, if its operands are in range (R60). -/
theorem assemble_of_commandOf {l : SourceLine} {i : Instr} (hi : commandOf l = some i) :
    assemble l = if l.wellFormed then some (encode i) else none := by
  cases l with
  | word64 w => cases hi
  | poll | reset | classify | rtcmLen | rtcmType =>
    cases hi
    rfl

/-- The same with the word as a number, and the ranges as a condition on the operands. -/
theorem assemble_eq_ite {l : SourceLine} {i : Instr} {c : Prop} [Decidable c] {n : Nat} (hi : commandOf l = some i)
    (hc : l.wellFormed = true ↔ c) (hn : c → (encode i).toNat = n) :
    assemble l = if c then some (BitVec.ofNat 64 n) else none := by
  rw [assemble_of_commandOf hi]
  refine ite_congr (propext hc) (fun h => ?_) fun _ => rfl
  rw [← hn h, BitVec.ofNat_toNat, BitVec.setWidth_eq]

/-- The assembled word of a line that writes a command decodes to that command. -/
theorem decode_of_assemble {l : SourceLine} {w : CommandWord} {i : Instr} (hi : commandOf l = some i)
    (hw : assemble l = some w) : decode w = .ok i := by
  rw [assemble_of_commandOf hi, Option.ite_none_right_eq_some, Option.some.injEq] at hw
  exact decode_eq_ok_iff_encode.2 hw.2

/-- An operand in range is the value of its field. -/
theorem toNat_field_of_lt {width n : Nat} (h : n < 2 ^ width) : (BitVec.ofNat width n).toNat = n := by
  rw [BitVec.toNat_ofNat, Nat.mod_eq_of_lt h]

/-- The operands of a line of format H are in range when each is a byte (R60). -/
theorem headerFits_iff (h0 h1 h2 h3 h4 : Nat) :
    (fitsField 8 h0 && fitsField 8 h1 && fitsField 8 h2 && fitsField 8 h3 && fitsField 8 h4) = true ↔
      h0 < 256 ∧ h1 < 256 ∧ h2 < 256 ∧ h3 < 256 ∧ h4 < 256 := by
  simp [and_assoc]

/-- Settles O9: the assembler encodes the line's command where the operands are in range. -/
theorem assemblerWritesTheFormats : Obligations.AssemblerWritesTheFormats := by
  refine ⟨fun dcap => ?_, by decide, fun b0 plen => ?_, fun h0 h1 h2 h3 h4 => ?_, fun h0 h1 h2 h3 h4 => ?_, fun w => ?_,
    fun l w i => decode_of_assemble⟩
  · refine assemble_eq_ite rfl (fitsField_iff 16 dcap) fun h => ?_
    rw [toNat_encode_poll, toNat_field_of_lt h]
  · refine assemble_eq_ite rfl (by simp [SourceLine.wellFormed]) fun ⟨hb, hp⟩ => ?_
    rw [toNat_encode_classify, toNat_field_of_lt hp, toNat_field_of_lt hb]
  · refine assemble_eq_ite rfl (headerFits_iff ..) fun ⟨l0, l1, l2, l3, l4⟩ => ?_
    rw [toNat_encode_rtcmLen, toNat_field_of_lt l0, toNat_field_of_lt l1, toNat_field_of_lt l2, toNat_field_of_lt l3,
      toNat_field_of_lt l4, formatHNumber]
  · refine assemble_eq_ite rfl (headerFits_iff ..) fun ⟨l0, l1, l2, l3, l4⟩ => ?_
    rw [toNat_encode_rtcmType, toNat_field_of_lt l0, toNat_field_of_lt l1, toNat_field_of_lt l2, toNat_field_of_lt l3,
      toNat_field_of_lt l4, formatHNumber]
  · exact ite_congr (propext (fitsField_iff 64 w)) (fun _ => rfl) fun _ => rfl

/-! ### The fields of a response by command -/

/-- A packet in a buffer of legal capacity has a span that DATA holds (R6, R55). -/
theorem PacketAt.toNat_data {s : State} {i span : Nat} {cls : PacketClass} (h : PacketAt s.rx i span cls) (hinv : s.Inv) :
    (BitVec.ofNat 16 span).toNat = span := by
  have hwithin := h.within
  obtain ⟨hcap, hused, -⟩ := hinv
  rw [BitVec.toNat_ofNat]
  omega

/-- A packet that POLL finds is of class NMEA or RTCM (R53). -/
theorem PacketAt.cls_code {rx : List Byte} {i span : Nat} {cls : PacketClass} (h : PacketAt rx i span cls) :
    cls.code = 1 ∨ cls.code = 2 := by
  rcases h with ⟨rfl, -⟩ | ⟨rfl, -⟩ <;> decide

theorem Diag.code_ne_three (d : Diag) : d.code ≠ 3 := by cases d <;> decide

/-- `w` answers for a packet that is the first candidate in `rx`, and DIAG is NONE (R55). -/
def AnswersPacket (rx : List Byte) (w : ResponseWord) : Prop :=
  (rspStatus w = 0x1#4 ∨ rspStatus w = 0x4#4) ∧ rspDiag w = 0 ∧
    ∃ i cls, PacketAt rx i (rspData w).toNat cls ∧ rspClass w = cls.code ∧ (rspClass w = 1 ∨ rspClass w = 2)

/-- `w` answers NO_PACKET, with no class and no data (R55). -/
def AnswersNoPacket (w : ResponseWord) : Prop :=
  rspStatus w = 0x2#4 ∧ rspClass w = 0 ∧ rspDiag w ≠ 3 ∧ rspData w = 0

theorem answersPacket_of_packetAt {s : State} {i span : Nat} {cls : PacketClass} {st : Status} (hinv : s.Inv)
    (h : PacketAt s.rx i span cls) (hst : st.code = 0x1#4 ∨ st.code = 0x4#4) :
    AnswersPacket s.rx (Response.word ⟨st, cls, .none, BitVec.ofNat 16 span⟩) := by
  refine ⟨?_, Response.diag_word _, i, cls, ?_, Response.class_word _, ?_⟩
  · rw [Response.status_word]
    exact hst
  · rw [Response.data_word, h.toNat_data hinv]
    exact h
  · rw [Response.class_word]
    exact h.cls_code

theorem answersNoPacket (d : Diag) : AnswersNoPacket (Response.word ⟨.noPacket, .none, d, 0⟩) :=
  ⟨Response.status_word _, Response.class_word _, by rw [Response.diag_word]; exact d.code_ne_three,
    Response.data_word _⟩

/-- What a scan answers (R55). -/
theorem ScanEnd.rsp_fields {dcap : BitVec 16} {s t : State} (hinv : s.Inv) (h : ScanEnd dcap s t) :
    AnswersPacket s.rx t.rsp ∨ AnswersNoPacket t.rsp := by
  cases h with
  | waits => exact .inr (answersNoPacket .none)
  | rejects i d => exact .inr (answersNoPacket d)
  | tooSmall i span cls h => exact .inl (answersPacket_of_packetAt hinv h (.inr rfl))
  | packet i span cls h => exact .inl (answersPacket_of_packetAt hinv h (.inl rfl))

/-- The fields of a response all at once, as the four views of its word read them. -/
theorem Response.fields_word (r : Response) : rspStatus r.word = r.status.code ∧ rspClass r.word = r.cls.code ∧
    rspDiag r.word = r.diag.code ∧ rspData r.word = r.data :=
  ⟨r.status_word, r.class_word, r.diag_word, r.data_word⟩

/-- What a POLL answers, by STATUS (R55). -/
theorem PollEnd.rsp_fields {dcap : BitVec 16} {s t : State} (hinv : s.Inv) (h : PollEnd dcap s t) :
    (∃ u, Ingests s u ∧ AnswersPacket u.rx t.rsp) ∨ AnswersNoPacket t.rsp ∨
      ((rspStatus t.rsp = 0x3#4 ∨ rspStatus t.rsp = 0x5#4) ∧ rspClass t.rsp = 0 ∧ rspDiag t.rsp = 0 ∧
        rspData t.rsp = 0) := by
  cases h with
  | bufferFull =>
    obtain ⟨hst, hrest⟩ := Response.fields_word ⟨.bufferFull, .none, .none, 0⟩
    exact .inr (.inr ⟨.inl hst, hrest⟩)
  | readFailure =>
    obtain ⟨hst, hrest⟩ := Response.fields_word ⟨.readFailure, .none, .none, 0⟩
    exact .inr (.inr ⟨.inr hst, hrest⟩)
  | scans hi hs =>
    rcases hs.rsp_fields (hi.inv hinv) with h | h
    · exact .inl ⟨_, hi, h⟩
    · exact .inr (.inl h)

/-- CLASSIFY never answers NONE (R86). -/
theorem classOf_code_ne_zero (b0 : Byte) (plen : BitVec 16) : (classOf b0 plen).code ≠ 0 := by
  unfold classOf
  split_ifs <;> decide

/-- Settles O29: POLL by the ways it can end, every other command by the one response it writes. -/
theorem responseFieldsByCommand : Obligations.ResponseFieldsByCommand := by
  refine ⟨fun s dcap t hinv he => ?_, fun s t he => ?_, fun b0 plen s t he => ?_, fun h0 h1 h2 h3 h4 s t he => ?_,
    fun h0 h1 h2 h3 h4 s t he => ?_, fun s t he => ?_, fun r => ?_, by decide⟩
  · rcases (pollEnd_of_exec he).rsp_fields hinv with ⟨u, hi, hst, hdiag, i, cls, h⟩ | h | h
    · exact .inl ⟨hst, hdiag, u, i, cls, hi, h⟩
    · exact .inr (.inl h)
    · exact .inr (.inr h)
  · cases he
    exact Response.word_of_reset
  · cases he
    obtain ⟨hst, hcls, hrest⟩ := Response.fields_word ⟨.ok, classOf b0 plen, .none, 0⟩
    exact ⟨hst, hcls ▸ classOf_code_ne_zero b0 plen, hrest⟩
  · cases he
    obtain ⟨hst, hcls, hdiag, hdata⟩ := Response.fields_word
      ⟨.ok, .none, .none, (payloadLength (headerBytes h0 h1 h2 h3 h4)).setWidth 16⟩
    refine ⟨hst, hcls, hdiag, ?_⟩
    rw [State.respond_rsp, hdata, BitVec.toNat_setWidth_of_le (by decide), toNat_payloadLength]
    rfl
  · cases he
    obtain ⟨hst, hcls, hdiag, hdata⟩ := Response.fields_word
      ⟨.ok, .none, .none, (messageType (headerBytes h0 h1 h2 h3 h4)).setWidth 16⟩
    refine ⟨hst, hcls, hdiag, ?_⟩
    rw [State.respond_rsp, hdata, BitVec.toNat_setWidth_of_le (by decide), toNat_messageType]
    rfl
  · cases he
    exact Response.fields_word _
  · rw [r.toNat_word]
    omega

end Sys2Proof.Machine
end

section
/-! PROOFS. CRC-24Q: the bit steps as numbers, as a linear map and as an injective one; what three trailing bytes do; and
the statements about `crc24` that follow. -/

namespace Sys2Proof

/-- Fields are placed bit by bit, so placing respects the exclusive or. -/
theorem placeAt_xor (w pos : Nat) {n : Nat} (u v : BitVec n) :
    placeAt w pos (u ^^^ v) = placeAt w pos u ^^^ placeAt w pos v := by
  rw [placeAt, BitVec.setWidth_xor, BitVec.shiftLeft_xor_distrib]
  rfl

/-- A field and a value below its place have no bit in common, so their exclusive or is their sum. -/
theorem toNat_placeAt_xor {w pos n : Nat} (h : pos + n ≤ w) (v : BitVec n) {y : BitVec w} (hy : y.toNat < 2 ^ pos) :
    (placeAt w pos v ^^^ y).toNat = v.toNat * 2 ^ pos + y.toNat := by
  rw [BitVec.toNat_xor, toNat_placeAt h, ← Nat.div_add_mod' (_ ^^^ _) (2 ^ pos), Nat.xor_div_two_pow,
    Nat.xor_mod_two_pow, Nat.mul_div_cancel _ (Nat.two_pow_pos pos), Nat.div_eq_of_lt hy, Nat.mul_mod_left,
    Nat.mod_eq_of_lt hy, Nat.xor_zero, Nat.zero_xor]

theorem xor_xor_xor_comm {w : Nat} (a b c d : BitVec w) : a ^^^ b ^^^ (c ^^^ d) = a ^^^ c ^^^ (b ^^^ d) := by
  ac_rfl

end Sys2Proof

namespace Sys2Proof.Machine

/-! ### Bit steps -/

/-- What a bit step takes off the doubled register `d`: the generator, if bit 24 (its top bit) is set (R66). -/
def crcReduction (d : BitVec 25) : BitVec 25 := if d.msb then crcPolynomial else 0

theorem crcShift_eq_xor (c : BitVec 25) : crcShift c = c <<< 1 ^^^ crcReduction (c <<< 1) := by
  rw [crcReduction, BitVec.msb_eq_getLsbD_last, crcShift]
  split
  · rfl
  · exact BitVec.xor_zero.symm

theorem crcReduction_xor (c d : BitVec 25) : crcReduction (c ^^^ d) = crcReduction c ^^^ crcReduction d := by
  simp only [crcReduction, BitVec.msb_xor]
  cases c.msb <;> cases d.msb <;> decide

/-- The reduction has the top bit of what it reduces. -/
theorem msb_crcReduction (d : BitVec 25) : (crcReduction d).msb = d.msb := by
  rw [crcReduction]
  cases d.msb <;> decide

/-- A bit step leaves bit 24 clear. -/
theorem toNat_crcShift_lt (c : BitVec 25) : (crcShift c).toNat < 2 ^ 24 := by
  have hmsb : (crcShift c).msb = false := by
    rw [crcShift_eq_xor, BitVec.msb_xor, msb_crcReduction, Bool.xor_self]
  have := BitVec.msb_eq_false_iff_two_mul_lt.1 hmsb
  omega

theorem toNat_crcShift {c : BitVec 25} (hc : c.toNat < 2 ^ 24) : (crcShift c).toNat = crcBitStep c.toNat := by
  have hdouble : (c <<< 1).toNat = c.toNat * 2 := by
    rw [BitVec.toNat_shiftLeft, Nat.shiftLeft_eq]
    omega
  have hmsb : (c <<< 1).msb = decide (0x1000000 ≤ c.toNat * 2) := hdouble ▸ BitVec.msb_eq_decide (c <<< 1)
  rw [crcShift_eq_xor, crcReduction, crcBitStep, BitVec.toNat_xor, hdouble, hmsb]
  by_cases h : c.toNat * 2 < 0x1000000
  · rw [if_pos h, if_neg (by simpa using h)]
    exact Nat.xor_zero _
  · rw [if_neg h, if_pos (by simpa using h)]
    rfl

theorem crcShift_xor (c d : BitVec 25) : crcShift (c ^^^ d) = crcShift c ^^^ crcShift d := by
  simp only [crcShift_eq_xor, BitVec.shiftLeft_xor_distrib, crcReduction_xor]
  exact xor_xor_xor_comm ..

/-- The generator is odd, so it is no doubled register, and a bit step makes no zero of a register that is not zero. -/
theorem crcShift_eq_zero {c : BitVec 25} (hc : c.toNat < 2 ^ 24) (h : crcShift c = 0) : c = 0 := by
  have hstep : crcBitStep c.toNat = 0 := by
    rw [← toNat_crcShift hc, h]
    rfl
  apply BitVec.eq_of_toNat_eq
  unfold crcBitStep at hstep
  split at hstep
  · show c.toNat = 0
    omega
  · have := Nat.eq_of_xor_eq_zero hstep
    omega

theorem toNat_crcShifts_lt (n : Nat) {c : BitVec 25} (hc : c.toNat < 2 ^ 24) : (crcShifts n c).toNat < 2 ^ 24 := by
  induction n generalizing c with
  | zero => exact hc
  | succ n ih => exact ih (toNat_crcShift_lt c)

theorem toNat_crcShifts (n : Nat) {c : BitVec 25} (hc : c.toNat < 2 ^ 24) :
    (crcShifts n c).toNat = crcBitStep^[n] c.toNat := by
  induction n generalizing c with
  | zero => rfl
  | succ n ih => rw [crcShifts, ih (toNat_crcShift_lt c), toNat_crcShift hc, Function.iterate_succ_apply]

theorem crcShifts_xor (n : Nat) (c d : BitVec 25) : crcShifts n (c ^^^ d) = crcShifts n c ^^^ crcShifts n d := by
  induction n generalizing c d with
  | zero => rfl
  | succ n ih => simp only [crcShifts, crcShift_xor, ih]

@[simp] theorem crcShifts_zero (n : Nat) : crcShifts n 0 = 0 := by
  induction n with
  | zero => rfl
  | succ n ih => exact ih

theorem crcShifts_eq_zero_iff (n : Nat) {c : BitVec 25} (hc : c.toNat < 2 ^ 24) : crcShifts n c = 0 ↔ c = 0 := by
  refine ⟨fun h => ?_, fun h => h ▸ crcShifts_zero n⟩
  induction n generalizing c with
  | zero => exact h
  | succ n ih => exact crcShift_eq_zero hc (ih (toNat_crcShift_lt c) h)

/-- Two registers with bit 24 clear have no bit 24 in their exclusive or. -/
theorem toNat_xor_lt {c d : BitVec 25} (hc : c.toNat < 2 ^ 24) (hd : d.toNat < 2 ^ 24) :
    (c ^^^ d).toNat < 2 ^ 24 := by
  rw [BitVec.toNat_xor]
  exact Nat.xor_lt_two_pow hc hd

/-- Bit steps lose nothing: they are linear, and only zero goes to zero. -/
theorem crcShifts_inj (n : Nat) {c d : BitVec 25} (hc : c.toNat < 2 ^ 24) (hd : d.toNat < 2 ^ 24) :
    crcShifts n c = crcShifts n d ↔ c = d := by
  rw [← BitVec.xor_eq_zero_iff, ← crcShifts_xor]
  exact (crcShifts_eq_zero_iff n (toNat_xor_lt hc hd)).trans BitVec.xor_eq_zero_iff

/-- Bit steps only move a byte to a higher place, as long as it does not reach bit 24. -/
theorem crcShifts_placeAt (n : Nat) {pos : Nat} (b : Byte) (h : pos + n + 8 ≤ 24) :
    crcShifts n (placeAt 25 pos b) = placeAt 25 (pos + n) b := by
  induction n generalizing pos with
  | zero => rfl
  | succ n ih =>
    have hmove : placeAt 25 pos b <<< 1 = placeAt 25 (pos + 1) b := (BitVec.shiftLeft_add ..).symm
    have hclear : (placeAt 25 (pos + 1) b).msb = false := by
      rw [BitVec.msb_eq_getLsbD_last, getLsbD_placeAt, BitVec.getLsbD_of_ge _ _ (by omega), Bool.and_false,
        Bool.and_false]
    have hshift : crcShift (placeAt 25 pos b) = placeAt 25 (pos + 1) b := by
      rw [crcShift_eq_xor, hmove, crcReduction, hclear]
      exact BitVec.xor_zero
    rw [crcShifts, hshift, ih (by omega), Nat.add_right_comm]
    rfl

/-! ### Bytes -/

/-- A byte at [23:16] leaves bit 24 clear. -/
theorem toNat_placeAt_16_lt (b : Byte) : (placeAt 25 16 b).toNat < 2 ^ 24 := by
  rw [toNat_placeAt (by decide)]
  have := b.isLt
  omega

theorem toNat_crcByte_lt {c : BitVec 25} (hc : c.toNat < 2 ^ 24) (b : Byte) : (crcByte c b).toNat < 2 ^ 24 :=
  toNat_crcShifts_lt 8 (toNat_xor_lt hc (toNat_placeAt_16_lt b))

theorem toNat_crcByte {c : BitVec 25} (hc : c.toNat < 2 ^ 24) (b : Byte) :
    (crcByte c b).toNat = crcBitStep^[8] (c.toNat ^^^ (b.toNat * 65536)) := by
  rw [crcByte, toNat_crcShifts 8 (toNat_xor_lt hc (toNat_placeAt_16_lt b)), BitVec.toNat_xor, toNat_placeAt (by decide)]
  rfl

theorem crcByte_xor (c d : BitVec 25) (a b : Byte) : crcByte (c ^^^ d) (a ^^^ b) = crcByte c a ^^^ crcByte d b := by
  rw [crcByte, crcByte, crcByte, ← crcShifts_xor, placeAt_xor, xor_xor_xor_comm]

/-- Different registers stay different whatever byte follows. -/
theorem crcByte_left_inj {c d : BitVec 25} (hc : c.toNat < 2 ^ 24) (hd : d.toNat < 2 ^ 24) (b : Byte) :
    crcByte c b = crcByte d b ↔ c = d := by
  have hb := toNat_placeAt_16_lt b
  rw [crcByte, crcByte, crcShifts_inj 8 (toNat_xor_lt hc hb) (toNat_xor_lt hd hb), BitVec.xor_left_inj]

/-- Different bytes leave different registers. -/
theorem crcByte_right_inj {c : BitVec 25} (hc : c.toNat < 2 ^ 24) (a b : Byte) :
    crcByte c a = crcByte c b ↔ a = b := by
  have ha := toNat_placeAt_16_lt a
  have hb := toNat_placeAt_16_lt b
  rw [crcByte, crcByte, crcShifts_inj 8 (toNat_xor_lt hc ha) (toNat_xor_lt hc hb), BitVec.xor_right_inj,
    ← BitVec.toNat_inj, ← BitVec.toNat_inj, toNat_placeAt (by decide), toNat_placeAt (by decide)]
  omega

/-! ### Byte sequences -/

theorem toNat_foldl_crcByte_lt (s : List Byte) {c : BitVec 25} (hc : c.toNat < 2 ^ 24) :
    (s.foldl crcByte c).toNat < 2 ^ 24 := by
  induction s generalizing c with
  | nil => exact hc
  | cons b s ih => exact ih (toNat_crcByte_lt hc b)

theorem foldl_crcByte_inj (s : List Byte) {c d : BitVec 25} (hc : c.toNat < 2 ^ 24) (hd : d.toNat < 2 ^ 24) :
    s.foldl crcByte c = s.foldl crcByte d ↔ c = d := by
  induction s generalizing c d with
  | nil => rfl
  | cons b s ih => exact (ih (toNat_crcByte_lt hc b) (toNat_crcByte_lt hd b)).trans (crcByte_left_inj hc hd b)

theorem foldl_crcByte_zipWith_xor {s t : List Byte} (h : s.length = t.length) (c d : BitVec 25) :
    (List.zipWith (· ^^^ ·) s t).foldl crcByte (c ^^^ d) = s.foldl crcByte c ^^^ t.foldl crcByte d := by
  induction s generalizing t c d with
  | nil =>
    obtain rfl := List.eq_nil_of_length_eq_zero h.symm
    rfl
  | cons a s ih =>
    obtain ⟨b, t, rfl⟩ := List.exists_cons_of_length_eq_add_one h.symm
    rw [List.zipWith_cons_cons, List.foldl_cons, crcByte_xor, ih (Nat.succ.inj h)]
    rfl

/-- The register after `s` from the seed 0 (R66). -/
abbrev crcRegister (s : List Byte) : BitVec 25 := s.foldl crcByte 0

theorem toNat_crcRegister_lt (s : List Byte) : (crcRegister s).toNat < 2 ^ 24 := toNat_foldl_crcByte_lt s (by decide)

/-- The CRC is the whole register, since bit 24 is clear. -/
theorem toNat_crc24 (s : List Byte) : (crc24 s).toNat = (crcRegister s).toNat := by
  rw [crc24, BitVec.toNat_setWidth, Nat.mod_eq_of_lt (toNat_crcRegister_lt s)]

theorem crc24_eq_iff (s t : List Byte) : crc24 s = crc24 t ↔ crcRegister s = crcRegister t := by
  rw [← BitVec.toNat_inj, toNat_crc24, toNat_crc24, BitVec.toNat_inj]

/-- Settles O36: a byte enters at [23:16] and takes eight bit steps, each of which is `crcBitStep` on the number. -/
theorem crc24ByteByByte : Obligations.Crc24ByteByByte := by
  refine ⟨rfl, fun s b => ?_, by decide +kernel, by decide +kernel⟩
  rw [toNat_crc24, toNat_crc24, crcRegister, crc_foldl_append]
  exact toNat_crcByte (toNat_crcRegister_lt s) b

/-- Settles O38: the bytes act linearly on the register, and the seed is 0 = 0 xor 0. -/
theorem crc24IsLinear : Obligations.Crc24IsLinear := by
  intro s t h
  rw [crc24, crc24, crc24, ← BitVec.setWidth_xor, ← foldl_crcByte_zipWith_xor h]
  rfl

/-! ### Three trailing bytes -/

/-- Three bytes in the register, the first the most significant (R67). -/
def crcTrailer (c2 c1 c0 : Byte) : BitVec 25 := placeAt 25 16 c2 ^^^ (placeAt 25 8 c1 ^^^ placeAt 25 0 c0)

theorem toNat_crcTrailer (c2 c1 c0 : Byte) : (crcTrailer c2 c1 c0).toNat = bigEndian24 c2 c1 c0 := by
  have h1 := c1.isLt
  have h0 := c0.isLt
  have low : (placeAt 25 0 c0).toNat = c0.toNat * 2 ^ 0 := toNat_placeAt (by decide) c0
  have mid : (placeAt 25 8 c1 ^^^ placeAt 25 0 c0).toNat = _ := toNat_placeAt_xor (by decide) c1 (by omega)
  rw [crcTrailer, toNat_placeAt_xor (by decide) c2 (by omega), bigEndian24]
  omega

theorem bigEndian24_lt (c2 c1 c0 : Byte) : bigEndian24 c2 c1 c0 < 2 ^ 24 := by
  have := c2.isLt
  have := c1.isLt
  have := c0.isLt
  unfold bigEndian24
  omega

/-- Three bytes one after the other act as the three at once, then 24 bit steps: a byte that enters at [23:16] after some
steps might as well have entered that many places lower before them. -/
theorem foldl_crcByte_three (c : BitVec 25) (c2 c1 c0 : Byte) :
    [c2, c1, c0].foldl crcByte c = crcShifts 24 (c ^^^ crcTrailer c2 c1 c0) := by
  have h1 : placeAt 25 16 c1 = crcShifts 8 (placeAt 25 8 c1) := (crcShifts_placeAt 8 c1 (by decide)).symm
  have h0 : placeAt 25 16 c0 = crcShifts 16 (placeAt 25 0 c0) := (crcShifts_placeAt 16 c0 (by decide)).symm
  calc [c2, c1, c0].foldl crcByte c
      = crcShifts 8 (crcShifts 8 (crcShifts 8 (c ^^^ placeAt 25 16 c2) ^^^ placeAt 25 16 c1) ^^^ placeAt 25 16 c0) := rfl
    _ = crcShifts 8 (crcShifts 16 (c ^^^ placeAt 25 16 c2 ^^^ placeAt 25 8 c1) ^^^ placeAt 25 16 c0) := by
      rw [h1, ← crcShifts_xor, ← crcShifts_add]
    _ = crcShifts 24 (c ^^^ placeAt 25 16 c2 ^^^ placeAt 25 8 c1 ^^^ placeAt 25 0 c0) := by
      rw [h0, ← crcShifts_xor, ← crcShifts_add]
    _ = crcShifts 24 (c ^^^ crcTrailer c2 c1 c0) := by
      rw [crcTrailer, BitVec.xor_assoc, BitVec.xor_assoc]

/-- A body and a trailer agree exactly when the whole has CRC 0 (R70). -/
theorem crc24_append_trailer_eq_zero_iff (body : List Byte) (c2 c1 c0 : Byte) :
    crc24 (body ++ [c2, c1, c0]) = 0 ↔ (crc24 body).toNat = bigEndian24 c2 c1 c0 := by
  have hbody := toNat_crcRegister_lt body
  have htrailer : (crcTrailer c2 c1 c0).toNat < 2 ^ 24 := toNat_crcTrailer c2 c1 c0 ▸ bigEndian24_lt c2 c1 c0
  calc crc24 (body ++ [c2, c1, c0]) = 0
    _ ↔ crcRegister (body ++ [c2, c1, c0]) = 0 := crc24_eq_iff _ []
    _ ↔ crcShifts 24 (crcRegister body ^^^ crcTrailer c2 c1 c0) = 0 := by
      rw [crcRegister, crc_foldl_append, foldl_crcByte_three]
    _ ↔ crcRegister body = crcTrailer c2 c1 c0 := by
      rw [crcShifts_eq_zero_iff 24 (toNat_xor_lt hbody htrailer)]
      exact BitVec.xor_eq_zero_iff
    _ ↔ (crc24 body).toNat = bigEndian24 c2 c1 c0 := by
      rw [← BitVec.toNat_inj, toNat_crc24, toNat_crcTrailer]

/-- A 24-bit word is its three bytes. -/
theorem bigEndian24_extractLsb' (c : BitVec 24) :
    bigEndian24 (c.extractLsb' 16 8) (c.extractLsb' 8 8) (c.extractLsb' 0 8) = c.toNat := by
  have := c.isLt
  simp only [bigEndian24, BitVec.extractLsb'_toNat, Nat.shiftRight_eq_div_pow]
  omega

/-- Settles O37: a CRC agrees with its own bytes as a trailer. -/
theorem crc24Residue : Obligations.Crc24Residue := fun s =>
  (crc24_append_trailer_eq_zero_iff s ..).2 (bigEndian24_extractLsb' (crc24 s)).symm

/-! ### A changed byte -/

/-- Any change of one byte changes the CRC (R70). -/
theorem crc24_set_ne {s : List Byte} {k : Nat} {b b' : Byte} (hk : s[k]? = some b) (hb : b' ≠ b) :
    crc24 (s.set k b') ≠ crc24 s := by
  obtain ⟨hlt, rfl⟩ := List.getElem?_eq_some_iff.1 hk
  have hbefore := toNat_crcRegister_lt (s.take k)
  have hsplit : s.take k ++ s[k] :: s.drop (k + 1) = s := by
    rw [List.getElem_cons_drop, List.take_append_drop]
  have hsame : crcRegister (s.set k b') = crcRegister s ↔ b' = s[k] := by
    conv_lhs => rhs; rw [← hsplit]
    rw [List.set_eq_take_append_cons_drop, if_pos hlt, crcRegister, crcRegister, crc_foldl_append, crc_foldl_append,
      List.foldl_cons, List.foldl_cons,
      foldl_crcByte_inj _ (toNat_crcByte_lt hbefore _) (toNat_crcByte_lt hbefore _), crcByte_right_inj hbefore]
  rwa [Ne, crc24_eq_iff, hsame]

/-- A flipped bit makes another byte. -/
theorem xor_bit_ne (b : Byte) {j : Nat} (hj : j < 8) : b ^^^ BitVec.ofNat 8 (2 ^ j) ≠ b := by
  intro h
  have hbit : BitVec.ofNat 8 (2 ^ j) = 0#8 := (BitVec.xor_right_inj b).1 (h.trans BitVec.xor_zero.symm)
  have hne : ∀ i < 8, BitVec.ofNat 8 (2 ^ i) ≠ 0#8 := by decide
  exact hne j hj hbit

/-- Settles O39: if both agreed, both wholes would have CRC 0, but they differ in one byte. -/
theorem crc24DetectsSingleBitFlip : Obligations.Crc24DetectsSingleBitFlip := by
  intro body c2 c1 c0 k j b hagree hj hk body' d2 d1 d0 _ hflip hagree'
  rw [← crc24_append_trailer_eq_zero_iff] at hagree hagree'
  apply crc24_set_ne hk (xor_bit_ne b hj)
  rw [← hflip, hagree', hagree]

end Sys2Proof.Machine
end

section
/-! PROOFS. RTCM_LEN and RTCM_TYPE: what they answer, which words they are, and their examples. -/

namespace Sys2Proof.Machine

/-- The answer OK with `n` as DATA, the word as a number (R18, R55). -/
theorem State.respond_ok_data {d : BitVec 16} {n : Nat} (hd : d.toNat = n) (s : State) :
    s.respond ⟨.ok, .none, .none, d⟩ = s.withRsp (BitVec.ofNat 32 (n * 256)) := by
  have hword : (Response.word ⟨.ok, .none, .none, d⟩).toNat = n * 256 := by
    rw [Response.toNat_word, hd]
    exact Nat.add_zero _
  rw [State.respond, ← hword, BitVec.ofNat_toNat, BitVec.setWidth_eq]

theorem exec_rtcmLen_eq (h0 h1 h2 h3 h4 : Byte) (s : State) :
    exec (.rtcmLen h0 h1 h2 h3 h4) s = .next (s.withRsp (BitVec.ofNat 32 (lengthOf h1 h2 * 256))) := by
  have hdata : ((payloadLength (headerBytes h0 h1 h2 h3 h4)).setWidth 16).toNat = lengthOf h1 h2 := by
    rw [BitVec.toNat_setWidth_of_le (by decide), toNat_payloadLength]
    rfl
  exact congrArg Host.Outcome.next (s.respond_ok_data hdata)

theorem exec_rtcmType_eq (h0 h1 h2 h3 h4 : Byte) (s : State) :
    exec (.rtcmType h0 h1 h2 h3 h4) s = .next (s.withRsp (BitVec.ofNat 32 ((h3.toNat * 16 + h4.toNat / 16) * 256))) := by
  have hdata : ((messageType (headerBytes h0 h1 h2 h3 h4)).setWidth 16).toNat = h3.toNat * 16 + h4.toNat / 16 := by
    rw [BitVec.toNat_setWidth_of_le (by decide), toNat_messageType]
    rfl
  exact congrArg Host.Outcome.next (s.respond_ok_data hdata)

/-- The operands of a decoded word are the fields of the word (R58). -/
theorem readOperands_of_decode {w : CommandWord} {i : Instr} (hd : decode w = .ok i) : readOperands (mnemonicOf i) w = i :=
  (decode_eq_ok_iff_fields.1 hd).2

/-- Settles O10: the answer is the payload length of the header bytes (R63). -/
theorem rtcmLenAnswersPayloadLength : Obligations.RtcmLenAnswersPayloadLength := by
  obtain ⟨-, -, -, hrow, -⟩ := opcodeTableDecoding
  obtain ⟨-, hfetch⟩ := stepRunsDecodedCommand
  refine ⟨exec_rtcmLen_eq, hrow, fun w h0 h1 h2 h3 h4 hd => ?_, fun s => ?_⟩
  · cases readOperands_of_decode hd
    exact ⟨rfl, rfl, rfl, rfl, rfl⟩
  · exact (hfetch s 64 _ (.rtcmLen 0xD3 0x00 0x05 0x01 0x02) (by decide)).trans (exec_rtcmLen_eq ..)

/-- Settles O11: the answer is the message type of the header bytes (R64). -/
theorem rtcmTypeAnswersMessageType : Obligations.RtcmTypeAnswersMessageType := by
  obtain ⟨-, -, -, -, hrow, -⟩ := opcodeTableDecoding
  obtain ⟨-, hfetch⟩ := stepRunsDecodedCommand
  refine ⟨exec_rtcmType_eq, hrow, fun w h0 h1 h2 h3 h4 hd => ?_, fun s => ?_⟩
  · cases readOperands_of_decode hd
    exact ⟨rfl, rfl, rfl, rfl, rfl⟩
  · exact (hfetch s 64 _ (.rtcmType 0xD3 0x00 0x13 0x3E 0xD7) (by decide)).trans (exec_rtcmType_eq ..)

end Sys2Proof.Machine
end

section
/-! PROOFS. POLL rule by rule: the buffer alone decides how the scan ends, and the ingest that comes before the scan. -/

namespace Sys2Proof.Machine

/-! ### The buffer has one first candidate -/

/-- The first candidate is neither a packet nor proven invalid: the scan waits for more bytes (R76, R77, R82). -/
def Waits (rx : List Byte) : Prop := ¬ HasPacket rx ∧ ∀ i d, ¬ ProvenInvalidAt rx i d

/-- A line ends at its first CR LF only. -/
theorem FirstCrLfAfter.unique {rx : List Byte} {i j k : Nat} (hj : FirstCrLfAfter rx i j) (hk : FirstCrLfAfter rx i k) :
    j = k := by
  obtain ⟨hij, hcj, hfj⟩ := hj
  obtain ⟨hik, hck, hfk⟩ := hk
  rcases lt_trichotomy j k with h | h | h
  · exact absurd hcj (hfk j h hij)
  · exact h
  · exact absurd hck (hfj k h hik)

/-- A buffer has at most one complete packet as its first candidate. -/
theorem PacketAt.unique {rx : List Byte} {i i' span span' : Nat} {cls cls' : PacketClass} (h : PacketAt rx i span cls)
    (h' : PacketAt rx i' span' cls') : i = i' ∧ span = span' ∧ cls = cls' := by
  obtain rfl := marker_unique h.marker h'.marker
  rcases h with ⟨rfl, hn, j, hj, rfl⟩ | ⟨rfl, l, ⟨hr, h1, h2, hh, -, rfl, -, -⟩, rfl⟩ <;>
    rcases h' with ⟨rfl, hn', j', hj', rfl⟩ | ⟨rfl, l', ⟨hr', h1', h2', hh', -, rfl, -, -⟩, rfl⟩
  · obtain rfl := hj.unique hj'
    exact ⟨rfl, rfl, rfl⟩
  · exact (not_nmea_and_rtcm hn hr').elim
  · exact (not_nmea_and_rtcm hn' hr).elim
  · obtain ⟨rfl, rfl⟩ := hh.unique hh'
    exact ⟨rfl, rfl, rfl⟩

/-- A candidate is proven invalid for one reason only, since the reserved bits are checked first (R78). -/
theorem ProvenInvalidAt.unique {rx : List Byte} {i i' : Nat} {d d' : Diag} (h : ProvenInvalidAt rx i d)
    (h' : ProvenInvalidAt rx i' d') : i = i' ∧ d = d' := by
  obtain rfl := marker_unique (.inr h.1) (.inr h'.1)
  obtain ⟨-, h1, h2, hh, hd⟩ := h
  obtain ⟨-, h1', h2', hh', hd'⟩ := h'
  obtain ⟨rfl, rfl⟩ := hh.unique hh'
  refine ⟨rfl, ?_⟩
  rcases hd with ⟨rfl, hge⟩ | ⟨rfl, hlt, -⟩ <;> rcases hd' with ⟨rfl, hge'⟩ | ⟨rfl, hlt', -⟩
  · rfl
  · omega
  · omega
  · rfl

theorem MarkerFree.waits {rx : List Byte} (h : MarkerFree rx) : Waits rx := by
  have hno (i : Nat) : ¬ (NmeaAt rx i ∨ RtcmAt rx i) := fun hm => by
    rw [← firstMarker_eq_some, firstMarker_eq_none.2 h] at hm
    cases hm
  exact ⟨fun ⟨i, _, _, hp⟩ => hno i hp.marker, fun i _ hd => hno i (.inr hd.1)⟩

/-- A line without its CR LF waits (R76). -/
theorem NmeaAt.waits {rx : List Byte} {i : Nat} (hi : NmeaAt rx i) (hno : NoCrLfAfter rx i) : Waits rx := by
  refine ⟨fun ⟨k, _, _, hp⟩ => ?_, fun k d hd => ?_⟩
  · obtain rfl := marker_unique hp.marker (.inl hi)
    rcases hp with ⟨-, -, j, ⟨hij, hc, -⟩, -⟩ | ⟨-, l, ⟨hr, -⟩, -⟩
    · exact hno j (List.getElem?_eq_some_iff.1 hc.1).1 hij hc
    · exact not_nmea_and_rtcm hi hr
  · obtain rfl := marker_unique (.inr hd.1) (.inl hi)
    exact not_nmea_and_rtcm hi hd.1

/-- A frame without its 6 header bytes waits (R77). -/
theorem RtcmAt.waits_of_short {rx : List Byte} {i : Nat} (hi : RtcmAt rx i) (hlen : rx.length - i < 6) : Waits rx := by
  refine ⟨fun ⟨k, _, _, hp⟩ => ?_, fun k d hd => ?_⟩
  · obtain rfl := marker_unique hp.marker (.inr hi)
    rcases hp with ⟨-, hn, -⟩ | ⟨-, l, ⟨-, _, _, ⟨h6, -⟩, -⟩, -⟩
    · exact not_nmea_and_rtcm hn hi
    · omega
  · obtain rfl := marker_unique (.inr hd.1) (.inr hi)
    obtain ⟨-, _, _, ⟨h6, -⟩, -⟩ := hd
    omega

/-- A frame whose reserved bits are zero waits for all the bytes its length announces (R77). -/
theorem RtcmAt.waits_of_incomplete {rx : List Byte} {i : Nat} {h1 h2 : Byte} (hi : RtcmAt rx i)
    (hh : HeaderAt rx i h1 h2) (h4 : h1.toNat < 4) (hlen : rx.length - i < 6 + lengthOf h1 h2) : Waits rx := by
  refine ⟨fun ⟨k, _, _, hp⟩ => ?_, fun k d hd => ?_⟩
  · obtain rfl := marker_unique hp.marker (.inr hi)
    rcases hp with ⟨-, hn, -⟩ | ⟨-, l, ⟨-, _, _, hh', -, rfl, hl, -⟩, -⟩
    · exact not_nmea_and_rtcm hn hi
    · obtain ⟨rfl, rfl⟩ := hh.unique hh'
      omega
  · obtain rfl := marker_unique (.inr hd.1) (.inr hi)
    obtain ⟨-, _, _, hh', hbad⟩ := hd
    obtain ⟨rfl, rfl⟩ := hh.unique hh'
    rcases hbad with ⟨-, hge⟩ | ⟨-, -, hl, -⟩ <;> omega

/-! ### The scan by what the buffer holds -/

theorem pollScan_of_nmeaAt {s : State} {i : Nat} (hi : NmeaAt s.rx i) (dcap : BitVec 16) :
    pollScan dcap s = nmeaCandidate i dcap s := by
  simp only [pollScan, firstMarker_eq_some.2 (.inl hi)]
  exact if_pos (byteAt_eq_of_getElem? hi.2)

theorem pollScan_of_rtcmAt {s : State} {i : Nat} (hi : RtcmAt s.rx i) (dcap : BitVec 16) :
    pollScan dcap s = rtcmCandidate i dcap s := by
  simp only [pollScan, firstMarker_eq_some.2 (.inr hi), byteAt_eq_of_getElem? hi.2]
  exact if_neg (by decide)

theorem pollScan_of_waits {s : State} (h : Waits s.rx) (dcap : BitVec 16) :
    pollScan dcap s = .next (noPacket .none s) := by
  obtain ⟨hp, hd⟩ := h
  obtain ⟨t, ht, hend⟩ := pollScan_ends dcap s
  cases hend with
  | waits => exact ht
  | rejects i d h => exact (hd i d h).elim
  | tooSmall i span cls h => exact (hp ⟨i, span, cls, h⟩).elim
  | packet i span cls h => exact (hp ⟨i, span, cls, h⟩).elim

theorem pollScan_of_provenInvalidAt {s : State} {i : Nat} {d : Diag} (h : ProvenInvalidAt s.rx i d) (dcap : BitVec 16) :
    pollScan dcap s = reject i d s := by
  obtain ⟨t, ht, hend⟩ := pollScan_ends dcap s
  rw [ht, reject_next h.within]
  cases hend with
  | waits hw => exact ((hw i).2 d h).elim
  | rejects i' d' h' =>
    obtain ⟨rfl, rfl⟩ := h.unique h'
    rfl
  | tooSmall i' span cls h' => exact (h.not_hasPacket ⟨i', span, cls, h'⟩).elim
  | packet i' span cls h' => exact (h.not_hasPacket ⟨i', span, cls, h'⟩).elim

theorem pollScan_of_packetAt {s : State} {i span : Nat} {cls : PacketClass} (h : PacketAt s.rx i span cls)
    (dcap : BitVec 16) : pollScan dcap s = extract i span cls dcap s := by
  obtain ⟨t, ht, hend⟩ := pollScan_ends dcap s
  rw [ht, extract_next h.within]
  cases hend with
  | waits hw => exact ((hw i).1 span cls h).elim
  | rejects i' d h' => exact (h'.not_hasPacket ⟨i, span, cls, h⟩).elim
  | tooSmall i' span' cls' h' hd =>
    obtain ⟨rfl, rfl, rfl⟩ := h.unique h'
    rw [if_pos hd]
  | packet i' span' cls' h' hd =>
    obtain ⟨rfl, rfl, rfl⟩ := h.unique h'
    rw [if_neg (Nat.not_lt.2 hd)]

/-! ### The response word of each end -/

theorem Response.word_of_bufferFull : Response.word ⟨.bufferFull, .none, .none, 0⟩ = 0x00000003#32 := by decide

theorem Response.word_of_readFailure : Response.word ⟨.readFailure, .none, .none, 0⟩ = 0x00000005#32 := by decide

theorem Response.word_of_noPacket (d : Diag) :
    Response.word ⟨.noPacket, .none, d, 0⟩ = BitVec.ofNat 32 (d.code.toNat * 64 + 2) := by
  cases d <;> decide

theorem noPacket_eq (d : Diag) (s : State) : noPacket d s = s.withRsp (BitVec.ofNat 32 (d.code.toNat * 64 + 2)) :=
  congrArg s.withRsp (Response.word_of_noPacket d)

/-- The answer for a packet whose span DATA holds, as a number (R18, R55). -/
theorem State.respond_span {span : Nat} (hspan : (BitVec.ofNat 16 span).toNat = span) (st : Status) (cls : PacketClass)
    (s : State) : s.respond ⟨st, cls, .none, BitVec.ofNat 16 span⟩ =
      s.withRsp (BitVec.ofNat 32 (span * 256 + cls.code.toNat * 16 + st.code.toNat)) := by
  have hword : (Response.word ⟨st, cls, .none, BitVec.ofNat 16 span⟩).toNat
      = span * 256 + cls.code.toNat * 16 + st.code.toNat := by
    have hdiag : Diag.none.code.toNat = 0 := rfl
    simp only [Response.toNat_word, hspan, hdiag]
    omega
  rw [State.respond, ← hword, BitVec.ofNat_toNat, BitVec.setWidth_eq]

/-! ### The ingest -/

/-- With room and a read that succeeds, a POLL takes the first `min avail room` bytes of SRC in (R72). -/
theorem ingests_of_room {s : State} {n : Nat} (hsrc : s.src ≠ []) (hroom : s.rx.length < s.config.cap)
    (he : s.readError = none) (hn : n = min s.src.length (s.config.cap - s.rx.length)) :
    Ingests s { s with rx := s.rx ++ s.src.take n, src := s.src.drop n } := by
  refine .inr ⟨hsrc, hroom, he, ?_⟩
  rw [hn, Nat.min_comm, ← List.take_eq_take_min, ← List.drop_eq_drop_min]

/-- An ingest needs room in RX if SRC is not empty (R73). -/
theorem Ingests.not_stuck {s t : State} (h : Ingests s t) : ¬ s.Stuck := by
  rintro ⟨hfull, hsrc⟩
  rcases h with ⟨hnil, -⟩ | ⟨-, hroom, -⟩
  · exact hsrc hnil
  · omega

/-- With RX full and bytes waiting a POLL answers BUFFER_FULL (R73). -/
theorem execPoll_of_stuck {s : State} (h : s.Stuck) (dcap : BitVec 16) :
    execPoll dcap s = .next (s.withRsp 0x00000003#32) := by
  obtain ⟨t, ht, hend⟩ := execPoll_ends dcap s
  cases hend with
  | bufferFull => exact ht.trans (congrArg (fun w => (.next (s.withRsp w) : Result)) Response.word_of_bufferFull)
  | readFailure k _ hroom => exact absurd h.1 (Nat.not_le.2 hroom)
  | scans hi => exact (hi.not_stuck h).elim

/-- A read that fails drops at most what was asked for, and at most what was announced (R74; log 5). -/
theorem execPoll_of_readError {s : State} {k : Nat} (hsrc : s.src ≠ []) (hroom : s.rx.length < s.config.cap)
    (he : s.readError = some k) (dcap : BitVec 16) :
    execPoll dcap s = .next { s with src := s.src.drop (min k (min s.src.length (s.config.cap - s.rx.length)))
                                     readError := none, rsp := 0x00000005#32 } := by
  obtain ⟨t, ht, hend⟩ := execPoll_ends dcap s
  cases hend with
  | bufferFull h => exact absurd h.1 (Nat.not_le.2 hroom)
  | readFailure k' _ _ he' =>
    obtain rfl : k = k' := Option.some.inj (he.symm.trans he')
    rw [ht, State.respond, Response.word_of_readFailure]
    rfl
  | scans hi =>
    rcases hi with ⟨hnil, -⟩ | ⟨-, -, hnone, -⟩
    · exact absurd hnil hsrc
    · rw [he] at hnone
      cases hnone

/-! ### The rules -/

/-- A scan never answers BUFFER_FULL or READ_FAILURE (R84). -/
theorem ScanEnd.status_ne {dcap : BitVec 16} {s t : State} (h : ScanEnd dcap s t) :
    rspStatus t.rsp ≠ 0x3#4 ∧ rspStatus t.rsp ≠ 0x5#4 := by
  rcases h.status with ⟨-, hst⟩ | ⟨-, hst | hst⟩ <;> rw [hst] <;> decide

/-- Settles O16: a full RX excludes every other end of POLL, and an empty SRC leaves only the scan. -/
theorem pollBufferFull : Obligations.PollBufferFull := by
  refine ⟨fun s dcap hsrc hfull => execPoll_of_stuck ⟨hfull, hsrc⟩ dcap, fun s dcap hsrc => ?_⟩
  have hscan : exec (.poll dcap) s = pollScan dcap s := execPoll_ingests (.inl ⟨hsrc, rfl⟩) dcap
  obtain ⟨t, ht, hend⟩ := pollScan_ends dcap s
  exact ⟨hscan, t, hscan.trans ht, hend.status_ne.1⟩

/-- Settles O17: the announced number or the number asked for, whichever is less, is dropped. -/
theorem pollReadFailure : Obligations.PollReadFailure := by
  refine ⟨fun s dcap k hsrc hroom he => ⟨_, Nat.min_le_right _ _, execPoll_of_readError hsrc hroom he dcap⟩,
    fun s dcap m hsrc hroom hm => ⟨m, ?_⟩⟩
  refine (execPoll_of_readError (s := s.withReadError (some m)) hsrc hroom rfl dcap).trans ?_
  rw [State.withReadError_src, State.withReadError_config, State.withReadError_rx, Nat.min_eq_left hm]
  rfl

/-- Settles O18: each case is an ingest, after which POLL is the scan. -/
theorem pollIngestsWhatThereIsRoomFor : Obligations.PollIngestsWhatThereIsRoomFor :=
  ⟨fun _ dcap hsrc => execPoll_ingests (.inl ⟨hsrc, rfl⟩) dcap,
    fun _ dcap _ hsrc hroom he hn => execPoll_ingests (ingests_of_room hsrc hroom he hn) dcap⟩

/-- Settles O19: the scan looks at the byte of the first marker alone. -/
theorem firstMarkerIsTheCandidate : Obligations.FirstMarkerIsTheCandidate :=
  ⟨fun _ _ dcap _ hi hn => (execPoll_ingests hi dcap).trans (pollScan_of_nmeaAt hn dcap),
    fun _ _ dcap _ hi hr => (execPoll_ingests hi dcap).trans (pollScan_of_rtcmAt hr dcap)⟩

/-- A POLL after whose ingest the buffer waits answers NO_PACKET and keeps every byte. -/
theorem exec_poll_of_waits {s t : State} (hi : Ingests s t) (hw : Waits t.rx) (dcap : BitVec 16) :
    exec (.poll dcap) s = .next (t.withRsp 0x00000002#32) :=
  (execPoll_ingests hi dcap).trans ((pollScan_of_waits hw dcap).trans (congrArg _ (noPacket_eq .none t)))

/-- Settles O20: a buffer without a marker waits. -/
theorem pollWithoutMarkerKeepsBytes : Obligations.PollWithoutMarkerKeepsBytes :=
  fun _ _ dcap hi hfree => exec_poll_of_waits hi (MarkerFree.waits hfree) dcap

/-- Settles O21: a line without CR LF waits, and one with it is a packet. -/
theorem pollNmeaCandidate : Obligations.PollNmeaCandidate := by
  refine ⟨fun s t dcap i hi hn hno => exec_poll_of_waits hi (NmeaAt.waits hn hno) dcap,
    fun s t dcap i j hi hn hj => ?_⟩
  have hspan : i + 1 ≤ j := hj.1
  exact ⟨by omega, (execPoll_ingests hi dcap).trans (pollScan_of_packetAt (.inl ⟨rfl, hn, j, hj, rfl⟩) dcap)⟩

/-- Settles O22: in both cases the frame is not complete. -/
theorem pollRtcmCandidateWaits : Obligations.PollRtcmCandidateWaits :=
  ⟨fun _ _ dcap _ hi hr hlen => exec_poll_of_waits hi (RtcmAt.waits_of_short hr hlen) dcap,
    fun _ _ dcap _ _ _ hi hr hh h4 hlen => exec_poll_of_waits hi (RtcmAt.waits_of_incomplete hr hh h4 hlen) dcap⟩

/-- Settles O23: the first two frames are proven invalid, and the third is a packet. -/
theorem pollRtcmCandidateChecks : Obligations.PollRtcmCandidateChecks := by
  refine ⟨fun s t dcap i h1 h2 hi hr hh hge => ?_, fun s t dcap i h1 h2 hi hr hh hlt hl hc => ?_,
    fun s t dcap i h1 h2 hi hr hh hlt hl hc => ?_⟩ <;> refine (execPoll_ingests hi dcap).trans ?_
  · exact pollScan_of_provenInvalidAt ⟨hr, h1, h2, hh, .inl ⟨rfl, hge⟩⟩ dcap
  · exact pollScan_of_provenInvalidAt ⟨hr, h1, h2, hh, .inr ⟨rfl, hlt, hl, hc⟩⟩ dcap
  · exact pollScan_of_packetAt (.inr ⟨rfl, _, ⟨hr, h1, h2, hh, hlt, rfl, hl, hc⟩, rfl⟩) dcap

theorem State.rejected_of_discard {s : State} (h : s.config.badFramePolicy = .discard) (i : Nat) :
    s.rejected i = s.withRx (s.rx.drop (i + 1)) := by
  simp only [State.rejected, h]

theorem State.rejected_of_retain {s : State} (h : s.config.badFramePolicy = .retain) (i : Nat) : s.rejected i = s := by
  simp only [State.rejected, h]

/-- A POLL whose first candidate is proven invalid rejects it (R79). -/
theorem exec_poll_of_provenInvalidAt {s t : State} {i : Nat} {d : Diag} (hi : Ingests s t)
    (h : ProvenInvalidAt t.rx i d) (dcap : BitVec 16) :
    exec (.poll dcap) s = .next ((t.rejected i).withRsp (BitVec.ofNat 32 (d.code.toNat * 64 + 2))) := by
  rw [← noPacket_eq, ← reject_next h.within]
  exact (execPoll_ingests hi dcap).trans (pollScan_of_provenInvalidAt h dcap)

/-- Settles O24: the policy decides what the rejection leaves. -/
theorem pollRejectsByPolicy : Obligations.PollRejectsByPolicy := by
  refine ⟨fun s t dcap i d hi h hpol => ?_, fun s t dcap i d hi h hpol => ?_⟩ <;>
    rw [exec_poll_of_provenInvalidAt hi h]
  · rw [State.rejected_of_discard hpol]
    rfl
  · rw [State.rejected_of_retain hpol]
    rfl

/-- A POLL whose first candidate is a complete packet answers for it, as DCAP allows (R80, R81). -/
theorem exec_poll_of_packetAt {s t : State} {i span : Nat} {cls : PacketClass} (hi : Ingests s t)
    (h : PacketAt t.rx i span cls) (dcap : BitVec 16) :
    exec (.poll dcap) s =
      if dcap.toNat < span + 1 then .next (t.respond ⟨.bufferTooSmall, cls, .none, BitVec.ofNat 16 span⟩)
      else .next ((t.extracted i span).respond ⟨.packet, cls, .none, BitVec.ofNat 16 span⟩) :=
  (execPoll_ingests hi dcap).trans ((pollScan_of_packetAt h dcap).trans (extract_next h.within cls dcap))

/-- Settles O25: the capacity check fails, and only RSP is written. -/
theorem pollBufferTooSmall : Obligations.PollBufferTooSmall := by
  intro s t dcap i span cls hinv hi h hd
  rw [exec_poll_of_packetAt hi h, if_pos hd, State.respond_span (h.toNat_data (hi.inv hinv))]
  rfl

/-- Settles O26: the copy, its NUL and the compaction of an extraction. -/
theorem pollExtractsPacket : Obligations.PollExtractsPacket := by
  intro s t dcap i span cls hinv hi h hd
  refine ⟨(t.extracted i span).dest, ?_, fun k => ?_⟩
  · rw [exec_poll_of_packetAt hi h, if_neg (Nat.not_lt.2 hd), State.respond_span (toNat_data_of_fits hd)]
    rfl
  · rw [State.read_extracted (hi.inv hinv).dest_wf h.within, hi.dest_eq]

end Sys2Proof.Machine
end

section
/-! PROOFS. Illegal words, RESET and CLASSIFY; and what holds of a POLL however it ends: its frame, that no byte is lost,
and that a packet withheld may be asked for again. -/

namespace Sys2Proof.Machine

/-! ### Every command ends -/

@[simp] theorem State.rejected_src (s : State) (i : Nat) : (s.rejected i).src = s.src := by
  unfold State.rejected
  split <;> rfl

@[simp] theorem State.rejected_readError (s : State) (i : Nat) : (s.rejected i).readError = s.readError := by
  unfold State.rejected
  split <;> rfl

@[simp] theorem State.rejected_pending (s : State) (i : Nat) : (s.rejected i).pending = s.pending := by
  unfold State.rejected
  split <;> rfl

section
variable {dcap : BitVec 16} {s t : State}

theorem Ingests.pending_eq (h : Ingests s t) : t.pending = s.pending := by
  rcases h with ⟨-, rfl⟩ | ⟨-, -, -, rfl⟩ <;> rfl

theorem Ingests.readError_eq (h : Ingests s t) : t.readError = s.readError := by
  rcases h with ⟨-, rfl⟩ | ⟨-, -, -, rfl⟩ <;> rfl

theorem ScanEnd.src_eq (h : ScanEnd dcap s t) : t.src = s.src := by
  cases h with
  | waits | tooSmall | packet => rfl
  | rejects i => exact s.rejected_src i

theorem ScanEnd.readError_eq (h : ScanEnd dcap s t) : t.readError = s.readError := by
  cases h with
  | waits | tooSmall | packet => rfl
  | rejects i => exact s.rejected_readError i

theorem ScanEnd.pending_eq (h : ScanEnd dcap s t) : t.pending = s.pending := by
  cases h with
  | waits | tooSmall | packet => rfl
  | rejects i => exact s.rejected_pending i

theorem PollEnd.pending_eq (h : PollEnd dcap s t) : t.pending = s.pending := by
  cases h with
  | bufferFull | readFailure => rfl
  | scans hi hs => exact hs.pending_eq.trans hi.pending_eq

/-- A command leaves the command stream alone (R20, R32). -/
theorem exec_pending_eq {i : Instr} (he : exec i s = .next t) : t.pending = s.pending := by
  cases i with
  | poll dcap => exact (pollEnd_of_exec he).pending_eq
  | reset | classify | rtcmLen | rtcmType =>
    cases he
    rfl

@[simp] theorem State.applyMove_pending (s : State) (m : Move) : (s.applyMove m).pending = s.pending := by
  cases m <;> rfl

/-- A step takes one event from the ports, if there is one (R32). -/
theorem step_pending_eq (hs : step s = .next t) : t.pending = s.pending.tail := by
  rcases step_cases hs with ⟨hp, rfl⟩ | ⟨rest, ⟨m, hp, rfl⟩ | ⟨w, hp, ⟨i, -, he⟩ | ⟨-, rfl⟩⟩⟩
  · rw [hp]
    rfl
  · rw [hp]
    exact State.applyMove_pending _ m
  · rw [hp]
    exact exec_pending_eq he
  · rw [hp]
    rfl

end

/-- Settles O44: POLL by the ways it can end, every other command by its one equation. -/
theorem everyCommandEnds : Obligations.EveryCommandEnds := by
  refine ⟨fun i s => ?_, fun s => ?_⟩
  · obtain ⟨t, ht⟩ := exec_ends i s
    exact ⟨t, ht, exec_config_eq ht, exec_pending_eq ht⟩
  · obtain ⟨t, ht⟩ := step_ends s
    exact ⟨t, ht, step_config_eq ht, step_pending_eq ht⟩

/-! ### Illegal words -/

/-- Settles O3: no row accepts the word, so the decoder refuses it and the answer is that to an illegal word. -/
theorem illegalWordAnswersIllegal : Obligations.IllegalWordAnswersIllegal := by
  intro s w rest hp h1 h2 h3 h4 h5
  have hno : ∀ r ∈ opcodeTable, w &&& r.mask ≠ r.pattern := by
    simp only [opcodeTable, List.forall_mem_cons]
    exact ⟨h1, h2, h3, h4, h5, by simp⟩
  exact (step_of_decode_error hp (decode_eq_error.2 ⟨hno, rfl⟩)).trans (execIllegal_eq _)

/-! ### RESET -/

/-- Settles O13: RESET leaves DFR as power-on does, and the POLL of the example takes in two bytes, neither a marker. -/
theorem resetDiscardsBufferedBytes : Obligations.ResetDiscardsBufferedBytes := by
  refine ⟨exec_reset_eq_powerOn, fun w => decode_eq_ok_iff_encode.trans eq_comm, fun s t he => ?_,
    fun s t hcap _ hsrc herr he => ?_⟩ <;>
    obtain rfl : s.powerOn = t := Host.Outcome.next.inj ((exec_reset_eq_powerOn s).symm.trans he)
  · exact exec_reset_eq_powerOn s.powerOn
  · have hi : Ingests s.powerOn { s.powerOn with rx := [0x69#8, 0x6A#8], src := [] } := by
      have hfits := ingests_of_room (s := s.powerOn) (n := 2) (by simp [hsrc]) (by simp [hcap]) herr
        (by simp [hsrc, hcap])
      simpa [hsrc] using hfits
    have hfree : MarkerFree [0x69#8, 0x6A#8] := by decide
    exact ⟨rfl, rfl, exec_poll_of_waits hi (MarkerFree.waits hfree) 64⟩

/-! ### CLASSIFY -/

/-- The class of a first byte as a chain of numbers (R86). -/
theorem classOf_eq (b0 : Byte) (plen : BitVec 16) : classOf b0 plen =
    if plen.toNat = 0 then .unknown else if b0.toNat = 0x24 then .nmea
    else if b0.toNat = 0xD3 then .rtcm else .unknown := by
  have hplen : plen = 0 ↔ plen.toNat = 0 := BitVec.toNat_inj.symm
  have hdollar : b0 = dollar ↔ b0.toNat = 0x24 := BitVec.toNat_inj.symm
  have hpreamble : b0 = preamble ↔ b0.toNat = 0xD3 := BitVec.toNat_inj.symm
  simp only [classOf, hplen, hdollar, hpreamble]

theorem exec_classify_eq (b0 : Byte) (plen : BitVec 16) (s : State) : exec (.classify b0 plen) s =
    .next (s.withRsp (if plen.toNat = 0 then 0x00000030#32 else if b0.toNat = 0x24 then 0x00000010#32
      else if b0.toNat = 0xD3 then 0x00000020#32 else 0x00000030#32)) := by
  have hword (cls : PacketClass) : Response.word ⟨.ok, cls, .none, 0⟩ = BitVec.ofNat 32 (cls.code.toNat * 16) := by
    cases cls <;> decide
  refine congrArg (fun w => (.next (s.withRsp w) : Result)) ?_
  rw [hword, classOf_eq]
  split_ifs <;> rfl

/-- The shortest packets are `$` CR LF and a frame without payload. -/
theorem PacketAt.span_pos {rx : List Byte} {i span : Nat} {cls : PacketClass} (h : PacketAt rx i span cls) :
    0 < span := by
  rcases h with ⟨-, -, j, ⟨hij, -⟩, rfl⟩ | ⟨-, l, -, rfl⟩ <;> omega

/-- The first byte of a packet says its class (R86). -/
theorem PacketAt.classOf_first {rx : List Byte} {i span : Nat} {cls : PacketClass} (h : PacketAt rx i span cls)
    {plen : BitVec 16} (hplen : plen ≠ 0#16) : ∃ b0, rx[i]? = some b0 ∧ classOf b0 plen = cls := by
  rcases h with ⟨rfl, ⟨-, hb⟩, -⟩ | ⟨rfl, l, ⟨⟨-, hb⟩, -⟩, -⟩
  · exact ⟨_, hb, by simp [classOf, hplen, dollar]⟩
  · exact ⟨_, hb, by simp [classOf, hplen, dollar, preamble]⟩

/-- Settles O12: the packet that POLL copied to DEST begins with the marker of its class. -/
theorem classifyAnswersClassOfFirstByte : Obligations.ClassifyAnswersClassOfFirstByte := by
  obtain ⟨-, -, hrow, -⟩ := opcodeTableDecoding
  obtain ⟨-, hfetch⟩ := stepRunsDecodedCommand
  refine ⟨exec_classify_eq, hrow, fun w b0 plen hd => ?_, fun s dcap t hwf he hst => ?_, fun s => ?_⟩
  · cases readOperands_of_decode hd
    exact ⟨rfl, rfl⟩
  · obtain ⟨u, i, span, cls, hi, hp, hd, rfl⟩ := (pollEnd_of_exec he).extracted_of_packet hst
    have hplen : BitVec.ofNat 16 span ≠ 0#16 := by
      rw [Ne, ← BitVec.toNat_inj, toNat_data_of_fits hd]
      exact hp.span_pos.ne'
    obtain ⟨b0, hb0, hcls⟩ := hp.classOf_first hplen
    refine ⟨b0, _, ?_, rfl, ?_⟩
    · rw [State.respond_dest, State.read_extracted (hi.dest_eq ▸ hwf) hp.within, if_pos hp.span_pos]
      exact hb0
    · simp only [State.respond_rsp, Response.class_word, Response.data_word, hcls]
  · exact (hfetch s 64 _ (.classify 0xD3 11) (by decide)).trans (exec_classify_eq ..)

/-! ### The frame of POLL -/

/-- What an ingest takes from the front of SRC it puts at the end of RX (R72). -/
theorem Ingests.takes {s t : State} (h : Ingests s t) : ∃ n ≤ min s.src.length (s.config.cap - s.rx.length),
    t.src = s.src.drop n ∧ t.rx = s.rx ++ s.src.take n := by
  rcases h with ⟨-, rfl⟩ | ⟨hsrc, hroom, he, rfl⟩
  · exact ⟨0, Nat.zero_le _, rfl, by simp⟩
  · refine ⟨min (s.config.cap - s.rx.length) s.src.length, Nat.min_comm .. |>.le, List.drop_eq_drop_min, ?_⟩
    rw [← List.take_eq_take_min]

/-- The bytes of RX and SRC, in order, are the same after an ingest. -/
theorem Ingests.stream_eq {s t : State} (h : Ingests s t) : t.rx ++ t.src = s.rx ++ s.src := by
  obtain ⟨n, -, hsrc, hrx⟩ := h.takes
  rw [hsrc, hrx, List.append_assoc, List.take_append_drop]

/-- A scan leaves a rest of RX. -/
theorem ScanEnd.exists_rx_eq_drop {dcap : BitVec 16} {s t : State} (h : ScanEnd dcap s t) :
    ∃ m, t.rx = s.rx.drop m := by
  cases h with
  | waits | tooSmall => exact ⟨0, rfl⟩
  | rejects i =>
    cases hpol : s.config.badFramePolicy with
    | discard => exact ⟨i + 1, by rw [State.rejected_of_discard hpol]; rfl⟩
    | retain => exact ⟨0, by rw [State.rejected_of_retain hpol]; rfl⟩
  | packet i span => exact ⟨i + span, rfl⟩

/-- Settles O27, by the ways a POLL can end. -/
theorem pollFrame : Obligations.PollFrame := by
  intro s dcap t he
  have hend := pollEnd_of_exec he
  refine ⟨hend.config_eq, hend.pending_eq, ?_⟩
  cases hend with
  | bufferFull =>
    have hst : rspStatus (s.respond ⟨.bufferFull, .none, .none, 0⟩).rsp = 0x3#4 := Response.status_word _
    rw [hst]
    exact ⟨⟨0, Nat.zero_le _, rfl, fun _ => ⟨0, by simp⟩⟩, fun _ => rfl, fun _ => rfl, fun _ => rfl,
      fun h => absurd h (by decide)⟩
  | readFailure k =>
    exact ⟨⟨_, Nat.min_le_right _ _, rfl, fun h => absurd (Response.status_word _) h⟩, fun _ => rfl,
      fun h => absurd ((Response.status_word _).symm.trans h) (by decide), fun h => absurd (Response.status_word _) h,
      fun _ => rfl⟩
  | scans hi hs =>
    obtain ⟨hne3, hne5⟩ := hs.status_ne
    obtain ⟨n, hn, hsrc, hrx⟩ := hi.takes
    obtain ⟨m, hm⟩ := hs.exists_rx_eq_drop
    exact ⟨⟨n, hn, hs.src_eq.trans hsrc, fun _ => ⟨m, hrx ▸ hm⟩⟩, fun h => (h.elim hne3 hne5).elim,
      fun h => absurd h hne3, fun _ => hs.readError_eq.trans hi.readError_eq, fun h => absurd h hne5⟩

/-! ### No byte is lost -/

/-- No marker stands before the first candidate (R75). -/
theorem PacketAt.markerFree_take {rx : List Byte} {i span : Nat} {cls : PacketClass} (h : PacketAt rx i span cls) :
    MarkerFree (rx.take i) := h.marker.elim And.left And.left

/-- The reason of a rejection is never NONE (R54, R78). -/
theorem ProvenInvalidAt.diag_ne_zero {rx : List Byte} {i : Nat} {d : Diag} (h : ProvenInvalidAt rx i d) :
    d.code ≠ 0 := by
  obtain ⟨-, h1, h2, -, ⟨rfl, -⟩ | ⟨rfl, -⟩⟩ := h <;> decide

/-- A buffer is what stands before an element, the element, and what stands behind it. -/
theorem eq_take_append_cons_drop {rx : List Byte} {i : Nat} {b : Byte} (h : rx[i]? = some b) :
    rx = rx.take i ++ [b] ++ rx.drop (i + 1) := by
  obtain ⟨hlt, rfl⟩ := List.getElem?_eq_some_iff.1 h
  rw [List.append_assoc, List.singleton_append, List.getElem_cons_drop, List.take_append_drop]

/-- A buffer is what stands before a packet, the packet, and what stands behind it. -/
theorem eq_take_append_take_append_drop (rx : List Byte) (i span : Nat) :
    rx = rx.take i ++ (rx.drop i).take span ++ rx.drop (i + span) := by
  rw [← List.drop_drop, List.append_assoc, List.take_append_drop, List.take_append_drop]

/-- The bytes a scan takes out of RX: none; or those before the first candidate and a packet, which DEST then holds; or
under DISCARD those before it and its preamble (R88). -/
theorem ScanEnd.no_byte_lost {dcap : BitVec 16} {s t : State} (hwf : s.dest.wf) (h : ScanEnd dcap s t) :
    t.rx = s.rx ∨
    (∃ i span cls, rspStatus t.rsp = 0x1#4 ∧ PacketAt s.rx i span cls ∧ MarkerFree (s.rx.take i) ∧
      s.rx = s.rx.take i ++ (s.rx.drop i).take span ++ t.rx ∧ ∀ k < span, t.dest.read k = s.rx[i + k]?) ∨
    (∃ i, rspStatus t.rsp = 0x2#4 ∧ rspDiag t.rsp ≠ 0 ∧ s.config.badFramePolicy = .discard ∧
      MarkerFree (s.rx.take i) ∧ s.rx = s.rx.take i ++ [0xD3#8] ++ t.rx) := by
  cases h with
  | waits | tooSmall => exact .inl rfl
  | rejects i d h =>
    cases hpol : s.config.badFramePolicy with
    | discard =>
      refine .inr (.inr ⟨i, Response.status_word _, ?_, rfl, h.1.1, ?_⟩)
      · rw [noPacket, State.respond_rsp, Response.diag_word]
        exact h.diag_ne_zero
      · rw [State.rejected_of_discard hpol]
        exact eq_take_append_cons_drop h.1.2
    | retain => exact .inl (by rw [State.rejected_of_retain hpol]; rfl)
  | packet i span cls h =>
    refine .inr (.inl ⟨i, span, cls, Response.status_word _, h, h.markerFree_take, ?_, fun k hk => ?_⟩)
    · exact eq_take_append_take_append_drop s.rx i span
    · rw [State.respond_dest, State.read_extracted hwf h.within, if_pos hk]

/-- Settles O31: only RESET and a scan change RX, and a scan loses no byte. -/
theorem noByteIsLost : Obligations.NoByteIsLost := by
  intro i s t hwf he
  cases i with
  | poll dcap =>
    cases pollEnd_of_exec he with
    | bufferFull | readFailure => exact .inl rfl
    | scans hi hs =>
      have hlost := hs.no_byte_lost (hi.dest_eq ▸ hwf)
      rw [hi.config_eq] at hlost
      exact .inr (.inr ⟨dcap, _, rfl, hi, hs.src_eq, hi.stream_eq.symm, hlost⟩)
  | reset =>
    cases he
    exact .inr (.inl ⟨rfl, rfl⟩)
  | classify | rtcmLen | rtcmType =>
    cases he
    exact .inl rfl

/-! ### BUFFER_TOO_SMALL -/

/-- No two STATUS have one code (R52). -/
theorem Status.code_injective : Function.Injective Status.code := by
  intro a b
  cases a <;> cases b <;> decide

theorem Response.status_eq_of_code {r : Response} {st : Status} (h : rspStatus r.word = st.code) : r.status = st :=
  Status.code_injective (r.status_word.symm.trans h)

/-- A POLL that answers BUFFER_TOO_SMALL has found a packet and withheld it (R80). -/
theorem PollEnd.withheld_of_tooSmall {dcap : BitVec 16} {s t : State} (h : PollEnd dcap s t)
    (hst : rspStatus t.rsp = Status.bufferTooSmall.code) :
    ∃ u i span cls, Ingests s u ∧ PacketAt u.rx i span cls ∧
      t = u.respond ⟨.bufferTooSmall, cls, .none, BitVec.ofNat 16 span⟩ := by
  cases h with
  | bufferFull | readFailure => cases Response.status_eq_of_code hst
  | scans hi hs =>
    cases hs with
    | waits | rejects | packet => cases Response.status_eq_of_code hst
    | tooSmall i span cls h => exact ⟨_, i, span, cls, hi, h, rfl⟩

/-- With nothing in SRC, or room and a read that succeeds, a POLL goes on to the scan; RX has grown at its end (R72). -/
theorem exists_ingests {s : State} (h : s.src = [] ∨ (s.rx.length < s.config.cap ∧ s.readError = none)) :
    ∃ t, Ingests s t ∧ ∃ ys, t.rx = s.rx ++ ys := by
  have hi : ∃ t, Ingests s t := by
    by_cases hsrc : s.src = []
    · exact ⟨s, .inl ⟨hsrc, rfl⟩⟩
    · obtain ⟨hroom, he⟩ := h.resolve_left hsrc
      exact ⟨_, .inr ⟨hsrc, hroom, he, rfl⟩⟩
  obtain ⟨t, hi⟩ := hi
  obtain ⟨n, -, -, hrx⟩ := hi.takes
  exact ⟨t, hi, _, hrx⟩

/-- Settles O33: the packet stands in RX, whatever bytes come in behind it. -/
theorem bufferTooSmallIsRetrySafe : Obligations.BufferTooSmallIsRetrySafe := by
  intro s dcap t hinv he hst
  obtain ⟨u, i, span, cls, hi, hp, rfl⟩ := (pollEnd_of_exec he).withheld_of_tooSmall hst
  have hinvu : u.Inv := hi.inv hinv
  have hspan := hp.toNat_data hinvu
  simp only [State.respond_rx, State.respond_rsp, State.respond_src, State.respond_config, State.respond_readError,
    Response.data_word, Response.class_word, hspan]
  refine ⟨i, cls, hp, rfl, fun dcap' hretry => ?_⟩
  obtain ⟨v, hv, ys, hrx⟩ :=
    exists_ingests (s := u.respond ⟨.bufferTooSmall, cls, .none, BitVec.ofNat 16 span⟩) hretry
  have hpv : PacketAt v.rx i span cls := hrx ▸ hp.append ys
  rw [exec_poll_of_packetAt hv hpv]
  by_cases hd : dcap'.toNat < span + 1
  · rw [if_pos hd]
    exact ⟨_, rfl, Response.data_word _, Response.class_word _, fun _ => Response.status_word _, fun h => by omega⟩
  · rw [if_neg hd]
    refine ⟨_, rfl, Response.data_word _, Response.class_word _, fun h => absurd h hd,
      fun _ => ⟨Response.status_word _, fun k hk => ?_⟩⟩
    have hwithin := hp.within
    rw [State.respond_dest, State.read_extracted (hv.inv (hinvu.respond _)).dest_wf hpv.within, if_pos hk, hrx,
      State.respond_rx, List.getElem?_append_left (by omega)]

end Sys2Proof.Machine
end

section
/-! PROOFS. Runs of POLL over a stream of bytes (R88): a line that comes in byte by byte, and streams that never give a
packet and so fill the buffer. -/

namespace Sys2Proof.Machine

/-! ### One round: a FEED and a POLL -/

/-- The state in which the POLL of a round runs. -/
abbrev State.fed (s : State) (c : List Byte) (rest : List Event) : State := (s.withPending rest).withSrc (s.src ++ c)

/-- The two steps of a round are the POLL on the state that has the chunk in SRC. -/
theorem runSteps_feed_poll {s : State} {dcap : BitVec 16} {c : List Byte} {rest : List Event}
    (hp : s.pending = .move (.feed c) :: .command (encode (.poll dcap)) :: rest) :
    runSteps 2 s = exec (.poll dcap) (s.fed c rest) := by
  have hd : decode (encode (.poll dcap)) = .ok (.poll dcap) := decodeOfEncodeIsTheCommand _
  have hpoll := step_of_decode (s := s.fed c (.command (encode (.poll dcap)) :: rest)) rfl hd
  obtain ⟨t, ht⟩ := exec_ends (.poll dcap) (s.fed c rest)
  calc runSteps 2 s
      = runSteps 1 (s.fed c (.command (encode (.poll dcap)) :: rest)) := runSteps_succ (step_of_move hp) 1
    _ = .next t := runSteps_succ (hpoll.trans ht) 0
    _ = exec (.poll dcap) (s.fed c rest) := ht.symm

/-! ### Streams whose beginnings wait -/

/-- The beginning of a stream that has a `$` as its first marker waits, if it has no CR LF after the `$` (R76, R82). -/
theorem waits_of_prefix {stream p : List Byte} {i : Nat} (hp : p <+: stream) (hi : NmeaAt stream i)
    (hno : ∀ m, i + 1 ≤ m → m + 1 < p.length → ¬ CrLfAt stream m) : Waits p := by
  obtain ⟨ys, rfl⟩ := hp
  obtain ⟨hfree, hmark⟩ := hi
  rcases Nat.lt_or_ge i p.length with hlt | hge
  · rw [List.take_append_of_le_length hlt.le] at hfree
    rw [List.getElem?_append_left hlt] at hmark
    refine NmeaAt.waits ⟨hfree, hmark⟩ fun m _ him hc => ?_
    have hlast := (List.getElem?_eq_some_iff.1 hc.2).1
    exact hno m him hlast ⟨getElem?_append_of_some ys hc.1, getElem?_append_of_some ys hc.2⟩
  · refine MarkerFree.waits fun b hb => hfree b ?_
    rw [List.take_append, List.take_of_length_le hge]
    exact List.mem_append_left _ hb

/-! ### A line, byte by byte -/

/-- `s` with these bytes in RX, with nothing in SRC and no read error announced. -/
def State.buffered (s : State) (rx : List Byte) (rsp : ResponseWord) (pending : List Event) : State :=
  { s with rx := rx, rsp := rsp, src := [], readError := none, pending := pending }

theorem State.eq_buffered {s : State} (hrx : s.rx = []) (hsrc : s.src = []) (he : s.readError = none)
    (pending : List Event) : { s with pending := pending } = s.buffered [] s.rsp pending := by
  cases s
  cases hrx
  cases hsrc
  cases he
  rfl

/-- A round in which all of the chunk fits into RX (R72). -/
theorem runSteps_buffered {s : State} {rx c : List Byte} {rsp : ResponseWord} {dcap : BitVec 16} {rest : List Event}
    (hc : c ≠ []) (hfit : rx.length + c.length ≤ s.config.cap) :
    runSteps 2 (s.buffered rx rsp (.move (.feed c) :: .command (encode (.poll dcap)) :: rest)) =
      pollScan dcap (s.buffered (rx ++ c) rsp rest) := by
  have hpos : 0 < c.length := List.length_pos_iff.2 hc
  have hi := ingests_of_room (s := (s.buffered rx rsp rest).withSrc c) (n := c.length) hc
    (show rx.length < s.config.cap by omega) rfl (show c.length = min c.length (s.config.cap - rx.length) by omega)
  rw [State.withSrc_src, List.take_length, List.drop_length] at hi
  exact (runSteps_feed_poll rfl).trans (execPoll_ingests hi dcap)

/-- As long as a line waits, each of its bytes goes to the end of RX and is answered NO_PACKET (R72, R76). -/
theorem runSteps_feedOneByOne {s : State} {dcap : BitVec 16} {rest : List Event} (bytes : List Byte) {rx : List Byte}
    {rsp : ResponseWord} (hfit : rx.length + bytes.length ≤ s.config.cap)
    (hw : ∀ p, p <+: rx ++ bytes → Waits p) :
    ∃ w, runSteps (2 * bytes.length) (s.buffered rx rsp (feedOneByOne dcap bytes ++ rest)) =
        .next (s.buffered (rx ++ bytes) w rest) ∧ (bytes ≠ [] ∨ rsp = 0x00000002#32 → w = 0x00000002#32) := by
  induction bytes generalizing rx rsp with
  | nil => exact ⟨rsp, by rw [List.append_nil]; rfl, fun h => h.resolve_left fun hne => hne rfl⟩
  | cons b bs ih =>
    rw [List.append_cons] at hw ⊢
    rw [List.length_cons] at hfit ⊢
    have hround : runSteps 2 (s.buffered rx rsp (feedOneByOne dcap (b :: bs) ++ rest)) =
        .next (s.buffered (rx ++ [b]) 0x00000002#32 (feedOneByOne dcap bs ++ rest)) :=
      (runSteps_buffered (List.cons_ne_nil b []) (by rw [List.length_singleton]; omega)).trans <|
        (pollScan_of_waits (hw _ (List.prefix_append ..)) dcap).trans (congrArg _ (noPacket_eq .none _))
    obtain ⟨w, hrun, hrsp⟩ := ih (rx := rx ++ [b]) (rsp := 0x00000002#32)
      (by rw [List.length_append, List.length_singleton]; omega) hw
    refine ⟨w, ?_, fun _ => hrsp (.inr rfl)⟩
    rw [Nat.mul_succ, Nat.add_comm, runSteps_add, hround, andThen_next, hrun]

/-- A part of a line that lacks its LF waits (R76). -/
theorem waits_of_proper_prefix {sentence p : List Byte} (hdollar : sentence[0]? = some 0x24#8)
    (hline : FirstCrLfAfter sentence 0 (sentence.length - 2)) (hp : p <+: sentence)
    (hlt : p.length < sentence.length) : Waits p := by
  obtain ⟨-, -, hfirst⟩ := hline
  exact waits_of_prefix hp ⟨fun _ hb => absurd hb List.not_mem_nil, hdollar⟩ fun m him hm =>
    hfirst m (by omega) him

/-- The first bytes of a line that lacks its LF, fed one by one: they stand in RX, and the answer to the last of them is
NO_PACKET. -/
theorem runSteps_feedOneByOne_take {s : State} {dcap : BitVec 16} {rest : List Event} {sentence : List Byte}
    {rsp : ResponseWord} {k : Nat} (hfit : sentence.length ≤ s.config.cap) (hdollar : sentence[0]? = some 0x24#8)
    (hline : FirstCrLfAfter sentence 0 (sentence.length - 2)) (hpos : 0 < k) (hk : k < sentence.length) :
    runSteps (2 * k) (s.buffered [] rsp (feedOneByOne dcap sentence ++ rest)) =
      .next (s.buffered (sentence.take k) 0x00000002#32 (feedOneByOne dcap (sentence.drop k) ++ rest)) := by
  have hlen : (sentence.take k).length = k := List.length_take_of_le hk.le
  have hsplit : feedOneByOne dcap sentence ++ rest =
      feedOneByOne dcap (sentence.take k) ++ (feedOneByOne dcap (sentence.drop k) ++ rest) := by
    rw [← List.append_assoc, feedOneByOne, feedOneByOne, feedOneByOne, ← List.flatMap_append, List.take_append_drop]
  have hw (p : List Byte) (hp : p <+: sentence.take k) : Waits p := by
    have hle : p.length ≤ k := hlen ▸ hp.length_le
    exact waits_of_proper_prefix hdollar hline (hp.trans (List.take_prefix k sentence)) (hle.trans_lt hk)
  obtain ⟨w, hrun, hrsp⟩ := runSteps_feedOneByOne (s := s) (dcap := dcap) (rx := []) (rsp := rsp)
    (rest := feedOneByOne dcap (sentence.drop k) ++ rest) (sentence.take k) (by rw [hlen, List.length_nil]; omega) hw
  obtain rfl := hrsp (.inl (List.ne_nil_of_length_pos (by omega)))
  rw [hlen] at hrun
  rw [hsplit]
  exact hrun

/-- The POLL that finds a whole line in RX and nothing else leaves one state, whatever stood in RSP, which it writes
whole (R76, R81). -/
theorem pollScan_buffered_line {s : State} {dcap : BitVec 16} {rest : List Event} {sentence : List Byte}
    (hwf : s.dest.wf) (hdollar : sentence[0]? = some 0x24#8) (hline : FirstCrLfAfter sentence 0 (sentence.length - 2))
    (hd : sentence.length + 1 ≤ dcap.toNat) :
    ∃ t : State, (∀ rsp, pollScan dcap (s.buffered sentence rsp rest) = .next t) ∧
      t.rsp = BitVec.ofNat 32 (sentence.length * 256 + 0x11) ∧ t.rx = [] ∧ t.src = [] ∧ t.pending = rest ∧
      ∀ k, t.dest.read k =
        if k < sentence.length then sentence[k]? else if k = sentence.length then some 0x00#8 else s.dest.read k := by
  have hlen : 1 ≤ sentence.length - 2 := hline.1
  have hpacket : PacketAt sentence 0 sentence.length .nmea :=
    .inl ⟨rfl, ⟨fun _ hb => absurd hb List.not_mem_nil, hdollar⟩, _, hline, by omega⟩
  refine ⟨((s.buffered sentence s.rsp rest).extracted 0 sentence.length).respond
    ⟨.packet, .nmea, .none, BitVec.ofNat 16 sentence.length⟩, fun rsp => ?_, ?_, ?_, rfl, rfl, fun k => ?_⟩
  · rw [pollScan_of_packetAt (s := s.buffered sentence rsp rest) hpacket, extract_next hpacket.within,
      if_neg (Nat.not_lt.2 hd)]
    rfl
  · have hcode : PacketClass.nmea.code.toNat * 16 + Status.packet.code.toNat = 0x11 := rfl
    rw [State.respond_span (toNat_data_of_fits hd), State.withRsp_rsp, Nat.add_assoc, hcode]
  · exact List.drop_eq_nil_of_le (Nat.zero_add _).ge
  · rw [State.respond_dest, State.read_extracted (s := s.buffered sentence s.rsp rest) hwf hpacket.within,
      Nat.zero_add]
    rfl

/-- Settles O48: up to its last byte the line waits; then both ways of feeding it end in one POLL on the same buffer, and
only RSP tells them apart. -/
theorem byteAtATimeEqualsWhole : Obligations.ByteAtATimeEqualsWhole := by
  intro s sentence dcap rest hinv hrx hsrc he hfit hdollar hline hd
  simp only [State.eq_buffered hrx hsrc he]
  refine ⟨fun k hpos hk => ⟨_, runSteps_feedOneByOne_take hfit hdollar hline hpos hk, rfl⟩, ?_⟩
  obtain ⟨t, hscan, ht⟩ := pollScan_buffered_line (rest := rest) hinv.dest_wf hdollar hline hd
  have hlen : 1 ≤ sentence.length - 2 := hline.1
  refine ⟨t, ?_, ?_, ht⟩
  · obtain ⟨front, lf, hsplit⟩ : ∃ front lf, sentence = front ++ [lf] :=
      (sentence.eq_nil_or_concat').resolve_left (List.ne_nil_of_length_pos (by omega))
    have hfront : sentence.length = front.length + 1 := by rw [hsplit, List.length_append, List.length_singleton]
    have hrun := runSteps_feedOneByOne_take (s := s) (dcap := dcap) (rest := rest) (rsp := s.rsp) hfit hdollar hline
      (k := front.length) (by omega) (by omega)
    have htake : sentence.take front.length = front := by rw [hsplit, List.take_left]
    have hdrop : sentence.drop front.length = [lf] := by rw [hsplit, List.drop_left]
    rw [hfront, Nat.mul_succ, runSteps_add, hrun, andThen_next, htake, hdrop, ← hscan 0x00000002#32, hsplit]
    exact runSteps_buffered (List.cons_ne_nil lf []) (by rw [List.length_singleton]; omega)
  · have hne : sentence ≠ [] := List.ne_nil_of_length_pos (by omega)
    exact (runSteps_buffered (rx := []) hne ((Nat.zero_add _).le.trans hfit)).trans (hscan _)

/-! ### Streams that fill the buffer -/

/-- A run of rounds in which no POLL finds a candidate to answer for: chunks, none of them empty, are to come, no read
fails, and every beginning of the bytes of RX, of SRC and of the chunks, taken as one stream, waits. -/
structure Fills (dcap : BitVec 16) (chunks : List (List Byte)) (rest : List Event) (s : State) : Prop where
  pending_eq : s.pending = feedChunks dcap chunks ++ rest
  no_error : s.readError = none
  used_le : s.rx.length ≤ s.config.cap
  nonempty : ∀ c ∈ chunks, c ≠ []
  waits : ∀ p, p <+: s.rx ++ s.src ++ chunks.flatten → Waits p

/-- An ingest from a SRC that is not empty adds a byte to RX at least, and no more than RX has room for (R72). -/
theorem Ingests.grows {s t : State} (h : Ingests s t) (hsrc : s.src ≠ []) :
    s.rx.length + 1 ≤ t.rx.length ∧ t.rx.length ≤ s.config.cap := by
  rcases h with ⟨hnil, -⟩ | ⟨-, hroom, -, rfl⟩
  · exact absurd hnil hsrc
  · have hpos : 0 < s.src.length := List.length_pos_iff.2 hsrc
    simp only [List.length_append, List.length_take]
    omega

/-- A round adds a byte to RX at least, if RX is not full (R72, R73). -/
theorem Fills.round {dcap : BitVec 16} {c : List Byte} {cs : List (List Byte)} {rest : List Event} {s : State}
    (h : Fills dcap (c :: cs) rest s) : ∃ t, runSteps 2 s = .next t ∧ Fills dcap cs rest t ∧
      t.config = s.config ∧ min s.config.cap (s.rx.length + 1) ≤ t.rx.length := by
  obtain ⟨hp, he, hused, hne, hwaits⟩ := h
  obtain ⟨hc, hcs⟩ := List.forall_mem_cons.1 hne
  rw [List.flatten_cons, ← List.append_assoc, List.append_assoc s.rx] at hwaits
  have hsrc : s.src ++ c ≠ [] := List.append_ne_nil_of_right_ne_nil _ hc
  rw [runSteps_feed_poll hp]
  rcases Nat.lt_or_ge s.rx.length s.config.cap with hroom | hfull
  · obtain ⟨u, hi, -⟩ := exists_ingests (s := s.fed c (feedChunks dcap cs ++ rest)) (.inr ⟨hroom, he⟩)
    obtain ⟨hgrown, hfits⟩ := hi.grows hsrc
    have hstream : u.rx ++ u.src = s.rx ++ (s.src ++ c) := hi.stream_eq
    rw [← hstream] at hwaits
    have hprefix : u.rx <+: u.rx ++ u.src ++ cs.flatten := (List.prefix_append ..).trans (List.prefix_append ..)
    exact ⟨noPacket .none u, (execPoll_ingests hi dcap).trans (pollScan_of_waits (hwaits _ hprefix) dcap),
      ⟨hi.pending_eq, hi.readError_eq.trans he, hi.config_eq ▸ hfits, hcs, hwaits⟩, hi.config_eq,
      (Nat.min_le_right ..).trans hgrown⟩
  · exact ⟨_, execPoll_of_stuck (s := s.fed c (feedChunks dcap cs ++ rest)) ⟨hfull, hsrc⟩ dcap,
      ⟨rfl, he, hused, hcs, hwaits⟩, rfl, (Nat.min_le_left ..).trans hfull⟩

/-- After as many rounds as RX has room for, RX is full. -/
theorem Fills.rounds {dcap : BitVec 16} {later : List (List Byte)} {rest : List Event} (chunks : List (List Byte))
    {s : State} (h : Fills dcap (chunks ++ later) rest s) :
    ∃ t, runSteps (2 * chunks.length) s = .next t ∧ Fills dcap later rest t ∧ t.config = s.config ∧
      min s.config.cap (s.rx.length + chunks.length) ≤ t.rx.length := by
  induction chunks generalizing s with
  | nil => exact ⟨s, rfl, h, rfl, Nat.min_le_right ..⟩
  | cons c cs ih =>
    obtain ⟨u, hu, hfu, hcu, hlu⟩ := h.round
    obtain ⟨t, ht, hft, hct, hlt⟩ := ih hfu
    refine ⟨t, ?_, hft, hct.trans hcu, ?_⟩
    · rw [List.length_cons, Nat.mul_succ, Nat.add_comm, runSteps_add, hu]
      exact ht
    · rw [hcu] at hlt
      rw [List.length_cons]
      omega

/-- The round after CAP others answers BUFFER_FULL (R88(c), R107). -/
theorem Fills.exhausts {dcap : BitVec 16} {chunks : List (List Byte)} {rest : List Event} {s : State}
    (h : Fills dcap chunks rest s) (hlen : chunks.length = s.config.cap + 1) :
    ∃ t : State, runSteps (2 * (s.config.cap + 1)) s = .next t ∧ t.rsp = 0x00000003#32 ∧
      t.rx.length = s.config.cap := by
  rcases chunks.eq_nil_or_concat' with rfl | ⟨first, last, rfl⟩
  · simp at hlen
  rw [List.length_append, List.length_singleton, Nat.add_right_cancel_iff] at hlen
  obtain ⟨u, hu, ⟨hp, -, hused, hne, -⟩, hcfg, hgrown⟩ := h.rounds first
  rw [hcfg] at hused
  rw [hlen] at hu hgrown
  have hfull : u.rx.length = s.config.cap := by omega
  have hstuck : (u.fed last rest).Stuck :=
    ⟨(hcfg ▸ hfull.ge : u.config.cap ≤ u.rx.length), List.append_ne_nil_of_right_ne_nil _ (hne last (by simp))⟩
  refine ⟨(u.fed last rest).withRsp 0x00000003#32, ?_, rfl, hfull⟩
  rw [Nat.mul_succ, runSteps_add, hu, andThen_next, runSteps_feed_poll hp]
  exact execPoll_of_stuck hstuck dcap

/-- Settles O49: no beginning of a stream without a marker holds a candidate. -/
theorem markerFreeSourceExhaustsBuffer : Obligations.MarkerFreeSourceExhaustsBuffer := by
  intro s dcap chunks rest hinv he hrx hsrc hchunks hlen
  refine Fills.exhausts (s := s.withPending (feedChunks dcap chunks ++ rest))
    ⟨rfl, he, hinv.used_le, fun c hc => (hchunks c hc).1, fun p hp => MarkerFree.waits fun b hb => ?_⟩ hlen
  have hmem : b ∈ s.rx ++ s.src ++ chunks.flatten := hp.subset hb
  rw [List.mem_append, List.mem_append, List.mem_flatten] at hmem
  obtain (hb | hb) | ⟨c, hc, hb⟩ := hmem
  · exact hrx b hb
  · exact hsrc b hb
  · exact (hchunks c hc).2 b hb

/-- Settles O51: no beginning of an unterminated line holds a packet. -/
theorem unterminatedLineExhaustsBuffer : Obligations.UnterminatedLineExhaustsBuffer := by
  intro s dcap chunks rest i hinv he hi hno hchunks hlen
  refine Fills.exhausts (s := s.withPending (feedChunks dcap chunks ++ rest))
    ⟨rfl, he, hinv.used_le, hchunks, fun p hp => waits_of_prefix hp hi fun m him hm => ?_⟩ hlen
  exact hno m ((Nat.lt_of_succ_lt hm).trans_le hp.length_le) him

end Sys2Proof.Machine
end

section
/-! PROOFS. What lasts until RESET or power-on: RX full with bytes waiting (R95, R107). And several instances, which share
nothing (R99). -/

namespace Sys2Proof.Machine

/-! ### Steps that are no RESET and no power-on -/

section
variable {s t : State}

theorem NoReset.tail {pending : List Event} (h : NoReset pending) : NoReset pending.tail :=
  fun e he => h e (List.mem_of_mem_tail he)

/-- A step takes an event away and adds none, so no RESET and no power-on comes in (R32). -/
theorem step_keeps_noReset (h : NoReset s.pending) (hs : step s = .next t) : NoReset t.pending :=
  step_pending_eq hs ▸ h.tail

/-- Only POLL and RESET touch RX, and only POLL takes bytes from SRC (R85, R86, R68, R69). -/
theorem exec_keeps_bytes {i : Instr} (hpoll : ∀ dcap, i ≠ .poll dcap) (hreset : i ≠ .reset)
    (he : exec i s = .next t) : t.rx = s.rx ∧ t.src = s.src := by
  cases i with
  | poll dcap => exact absurd rfl (hpoll dcap)
  | reset => exact absurd rfl hreset
  | classify | rtcmLen | rtcmType =>
    cases he
    exact ⟨rfl, rfl⟩

/-- A move other than power-on leaves RX alone and takes nothing from SRC (R27, R40). -/
theorem State.applyMove_keeps_bytes {m : Move} (hm : m ≠ .powerOn) (s : State) :
    (s.applyMove m).rx = s.rx ∧ s.src <+: (s.applyMove m).src := by
  cases m with
  | feed bytes => exact ⟨rfl, List.prefix_append ..⟩
  | readError | supplyDest => exact ⟨rfl, List.prefix_rfl⟩
  | powerOn => exact absurd rfl hm

/-- A step that is no RESET and no power-on keeps RX and the bytes in SRC, unless it is a POLL (R32, R40, R87). -/
theorem step_cases_of_noReset (hno : NoReset s.pending) (hs : step s = .next t) :
    (t.rx = s.rx ∧ s.src <+: t.src) ∨ ∃ dcap, exec (.poll dcap) (s.withPending s.pending.tail) = .next t := by
  rcases step_cases hs with ⟨-, rfl⟩ | ⟨rest, ⟨m, hp, rfl⟩ | ⟨w, hp, ⟨i, hd, he⟩ | ⟨-, rfl⟩⟩⟩
  · exact .inl ⟨rfl, List.prefix_rfl⟩
  · have hm : m ≠ .powerOn := fun h => (hno (.move m) (hp ▸ List.mem_cons_self)).1 (congrArg _ h)
    exact .inl (State.applyMove_keeps_bytes hm (s.withPending rest))
  · have hw : ¬ isResetWord w := (hno (.command w) (hp ▸ List.mem_cons_self)).2 w rfl
    by_cases hpoll : ∃ dcap, i = .poll dcap
    · obtain ⟨dcap, rfl⟩ := hpoll
      rw [hp]
      exact .inr ⟨dcap, he⟩
    · have hreset : i ≠ .reset := by
        rintro rfl
        exact hw (decode_eq_ok_iff_encode.1 hd).symm
      obtain ⟨hrx, hsrc⟩ := exec_keeps_bytes (not_exists.1 hpoll) hreset he
      exact .inl ⟨hrx, hsrc ▸ List.prefix_rfl⟩
  · exact .inl ⟨rfl, List.prefix_rfl⟩

/-! ### BUFFER_FULL -/

/-- While RX is full and bytes wait, a POLL only answers BUFFER_FULL, so no step but RESET and power-on makes room
(R73, R95, R107). -/
theorem step_keeps_stuck (h : s.Stuck) (hno : NoReset s.pending) (hs : step s = .next t) : t.Stuck ∧ t.rx = s.rx := by
  rcases step_cases_of_noReset hno hs with ⟨hrx, hsrc⟩ | ⟨dcap, he⟩
  · obtain ⟨hfull, hne⟩ := h
    refine ⟨⟨?_, hsrc.ne_nil hne⟩, hrx⟩
    rwa [step_config_eq hs, hrx]
  · have hfull := execPoll_of_stuck (s := s.withPending s.pending.tail) h dcap
    obtain rfl := Host.Outcome.next.inj (hfull.symm.trans he)
    exact ⟨h, rfl⟩

end

/-- Settles O46: every step keeps a full RX with bytes waiting, the bytes of RX, and the absence of RESET and power-on. -/
theorem bufferFullLastsUntilReset : Obligations.BufferFullLastsUntilReset := by
  intro k s t hstuck hno hrun
  have hkeeps : (t.Stuck ∧ t.rx = s.rx) ∧ NoReset t.pending :=
    runSteps_keeps (P := fun u => (u.Stuck ∧ u.rx = s.rx) ∧ NoReset u.pending)
      (fun u v ⟨⟨hu, hrx⟩, hnou⟩ hs =>
        have ⟨hv, hvu⟩ := step_keeps_stuck hu hnou hs
        ⟨⟨hv, hvu.trans hrx⟩, step_keeps_noReset hnou hs⟩)
      k s t ⟨⟨hstuck, rfl⟩, hno⟩ hrun
  exact hkeeps.1

/-! ### Several instances -/

/-- A step of instance `k` puts a state at place `k` and does nothing else, and the state depends on what stands there
alone (R99). Where nothing stands there any state will do, as there is no place to put it (log 11). -/
theorem exists_bankStep_eq_set (k : Nat) (bank : Bank) :
    ∃ t, (∀ s, bank[k]? = some s → step s = .next t) ∧
      ∀ bank' : Bank, bank'[k]? = bank[k]? → bankStep k bank' = .next (bank'.set k t) := by
  cases hk : bank[k]? with
  | none =>
    refine ⟨State.reset, by simp, fun bank' hk' => ?_⟩
    rw [bankStep, hk', List.set_eq_of_length_le (List.getElem?_eq_none_iff.1 hk')]
  | some s =>
    obtain ⟨t, ht⟩ := step_ends s
    refine ⟨t, fun s' hs' => Option.some.inj hs' ▸ ht, fun bank' hk' => ?_⟩
    simp only [bankStep, hk', ht]

/-- Settles O50: the two steps write to two different places, and what each writes depends on its own place alone. -/
theorem instancesAreIndependent : Obligations.InstancesAreIndependent := by
  intro k j bank hkj
  obtain ⟨t, hown, hk⟩ := exists_bankStep_eq_set k bank
  obtain ⟨u, -, hj⟩ := exists_bankStep_eq_set j bank
  refine ⟨bank.set k t, bank.set j u, (bank.set k t).set j u, hk _ rfl, hj _ (List.getElem?_set_ne hkj), hj _ rfl, ?_,
    fun s t' hs hst => ?_, fun n hn => List.getElem?_set_ne hn.symm⟩
  · rw [List.set_comm t u hkj]
    exact hk _ (List.getElem?_set_ne hkj.symm)
  · obtain rfl : t = t' := Host.Outcome.next.inj ((hown s hs).symm.trans hst)
    exact List.getElem?_set_self (List.getElem?_eq_some_iff.1 hs).1

end Sys2Proof.Machine
end

section
/-! PROOFS. A first candidate that POLL never removes: an RTCM frame longer than RX has room for (R108), and under RETAIN a
proven-invalid one (R106). -/

namespace Sys2Proof.Machine

/-! ### A POLL that keeps every byte -/

section
variable {s t : State} {i : Nat} {d : Diag} {dcap : BitVec 16}

/-- An ingest only appends to RX (R72). -/
theorem Ingests.rx_prefix (h : Ingests s t) : s.rx <+: t.rx := by
  obtain ⟨n, -, -, hrx⟩ := h.takes
  exact hrx ▸ List.prefix_append ..

theorem ProvenInvalidAt.of_prefix {rx rx' : List Byte} (h : ProvenInvalidAt rx i d) (hp : rx <+: rx') :
    ProvenInvalidAt rx' i d := by
  obtain ⟨ys, rfl⟩ := hp
  exact h.append ys

/-- The answers of a POLL that extracts nothing: NO_PACKET with the DIAG `d`, or an ingest that stopped it (R73, R74). -/
def AnswersWithoutPacket (d : Diag) (rsp : ResponseWord) : Prop :=
  (rspStatus rsp = 0x2#4 ∧ rspDiag rsp = d.code) ∨ ((rspStatus rsp = 0x3#4 ∨ rspStatus rsp = 0x5#4) ∧ rspDiag rsp = 0)

/-- Where every scan after an ingest answers NO_PACKET and writes nothing but RSP, POLL keeps every byte of RX, since
BUFFER_FULL and READ_FAILURE leave RX as it is (R73, R74). -/
theorem exec_poll_keeps_rx (hscan : ∀ u, Ingests s u → pollScan dcap u = .next (noPacket d u))
    (he : exec (.poll dcap) s = .next t) : s.rx <+: t.rx ∧ AnswersWithoutPacket d t.rsp := by
  cases pollEnd_of_exec he with
  | bufferFull =>
    exact ⟨List.prefix_rfl, .inr ⟨.inl (Response.status_word _), Response.diag_word _⟩⟩
  | readFailure =>
    exact ⟨List.prefix_rfl, .inr ⟨.inr (Response.status_word _), Response.diag_word _⟩⟩
  | @scans u _ hi =>
    have hnext : pollScan dcap u = .next t := (execPoll_ingests hi dcap).symm.trans he
    obtain rfl : noPacket d u = t := Host.Outcome.next.inj ((hscan u hi).symm.trans hnext)
    exact ⟨hi.rx_prefix, .inl ⟨Response.status_word _, Response.diag_word _⟩⟩

/-! ### A frame longer than the buffer has room for -/

/-- RX never holds more than CAP bytes, so a frame that needs more still waits after the ingest (R77, R108). -/
theorem Ingests.waits_of_overlong {h1 h2 : Byte} (hi : Ingests s t) (hinv : s.Inv) (hr : RtcmAt s.rx i)
    (hh : HeaderAt s.rx i h1 h2) (h4 : h1.toNat < 4) (hlen : s.config.cap - i < 6 + lengthOf h1 h2) : Waits t.rx := by
  have hused : t.rx.length ≤ s.config.cap := hi.config_eq ▸ (hi.inv hinv).used_le
  obtain ⟨ys, hrx⟩ := hi.rx_prefix
  rw [← hrx] at hused ⊢
  exact RtcmAt.waits_of_incomplete (RtcmAt.append ys hr) (HeaderAt.append ys hh) h4 (by omega)

/-! ### A proven-invalid candidate under RETAIN -/

/-- Under RETAIN the first candidate is proven invalid, for the reason `d`: the state that R106 speaks of. -/
def State.Blocked (s : State) (i : Nat) (d : Diag) : Prop :=
  s.config.badFramePolicy = .retain ∧ ProvenInvalidAt s.rx i d

theorem State.Blocked.of_prefix (h : s.Blocked i d) (hc : t.config = s.config) (hp : s.rx <+: t.rx) : t.Blocked i d :=
  ⟨hc ▸ h.1, h.2.of_prefix hp⟩

/-- Under RETAIN a rejection writes only RSP (R79). -/
theorem pollScan_of_blocked (h : s.Blocked i d) (dcap : BitVec 16) : pollScan dcap s = .next (noPacket d s) := by
  obtain ⟨hpol, hbad⟩ := h
  rw [pollScan_of_provenInvalidAt hbad, reject_next hbad.within, State.rejected_of_retain hpol]

theorem exec_poll_of_blocked (h : s.Blocked i d) (he : exec (.poll dcap) s = .next t) :
    s.rx <+: t.rx ∧ AnswersWithoutPacket d t.rsp :=
  exec_poll_keeps_rx (fun _ hi => pollScan_of_blocked (h.of_prefix hi.config_eq hi.rx_prefix) dcap) he

/-- Of the steps that are no RESET and no power-on only POLL touches RX, and it only appends (R106). -/
theorem step_keeps_rx_of_blocked (h : s.Blocked i d) (hno : NoReset s.pending) (hs : step s = .next t) :
    s.rx <+: t.rx := by
  rcases step_cases_of_noReset hno hs with ⟨hrx, -⟩ | ⟨dcap, he⟩
  · exact hrx ▸ List.prefix_rfl
  · exact (exec_poll_of_blocked (s := s.withPending s.pending.tail) h he).1

end

/-- Settles O34: after every ingest the frame still waits, so the scan answers NO_PACKET and writes only RSP. -/
theorem overlongFrameNeverCompletes : Obligations.OverlongFrameNeverCompletes := by
  intro s t dcap i h1 h2 hinv hr hh h4 hlen he
  obtain ⟨hrx, hans⟩ := exec_poll_keeps_rx (d := .none)
    (fun u hi => pollScan_of_waits (hi.waits_of_overlong hinv hr hh h4 hlen) dcap) he
  rcases hans with ⟨hst, hdiag⟩ | ⟨hst, hdiag⟩
  · exact ⟨.inl hst, hdiag, hrx⟩
  · exact ⟨.inr hst, hdiag, hrx⟩

/-- Settles O47: every step appends to RX at most, so the candidate stays the first one and stays proven invalid. -/
theorem retainBlocksUntilReset : Obligations.RetainBlocksUntilReset := by
  intro k s t i d hpol hbad hno hrun
  obtain ⟨hblocked, hrx, -⟩ : t.Blocked i d ∧ s.rx <+: t.rx ∧ NoReset t.pending :=
    runSteps_keeps (P := fun u => u.Blocked i d ∧ s.rx <+: u.rx ∧ NoReset u.pending)
      (fun u v ⟨hu, hsu, hnou⟩ hs =>
        have huv := step_keeps_rx_of_blocked hu hnou hs
        ⟨hu.of_prefix (step_config_eq hs) huv, hsu.trans huv, step_keeps_noReset hnou hs⟩)
      k s t ⟨⟨hpol, hbad⟩, List.prefix_rfl, hno⟩ hrun
  refine ⟨hblocked.2, hrx, fun dcap u he => ?_⟩
  obtain ⟨-, hans⟩ := exec_poll_of_blocked hblocked he
  exact hans.imp id And.left

end Sys2Proof.Machine
end
